-- ==== Sys2Proof/Machine/Table.lean ====
section
/-! DEFINITION. Tables with natural-number keys in one canonical form (keys strictly rising): how the model holds the
decode ROM and the memory cells as plain data. -/

namespace Sys2Proof.Table

/-- The value at `k`, if the table lists one. -/
def lookup {α : Type} (k : Nat) : List (Nat × α) → Option α
  | [] => none
  | (k', v) :: t => if k = k' then some v else lookup k t

/-- Put `v` at `k`, in place of what stood there, keeping the keys rising. -/
def insert {α : Type} (k : Nat) (v : α) : List (Nat × α) → List (Nat × α)
  | [] => [(k, v)]
  | (k', v') :: t =>
    if k < k' then (k, v) :: (k', v') :: t
    else if k = k' then (k, v) :: t
    else (k', v') :: insert k v t

/-- Take `k` out of the table. -/
def erase {α : Type} (k : Nat) : List (Nat × α) → List (Nat × α)
  | [] => []
  | (k', v) :: t => if k = k' then erase k t else (k', v) :: erase k t

/-- Every key is at least `lo`, and the keys rise strictly. -/
def risesFrom {α : Type} (lo : Nat) : List (Nat × α) → Bool
  | [] => true
  | (k, _) :: t => decide (lo ≤ k) && risesFrom (k + 1) t

/-- The canonical form: the keys rise strictly. -/
def sorted {α : Type} (t : List (Nat × α)) : Bool := risesFrom 0 t

end Sys2Proof.Table
end

