-- ==== Sys2Proof/Word.lean ====
section
/-! DEFINITION. The cell, the one data type of the machine, and its plainest arithmetic.

A cell is an unsigned integer of `W` bits (`00_scope.md` R8): every memory cell, opcode, operand address, input value,
output value, `pc` and `FINFO` is one. `W` is a parameter of the machine, ADD and MUL are mathematical (R76, R77), and no
instruction slices a cell, so the model's cells are natural numbers and every bound `< 2^W` is written out: in
`Instr.wf`, `Params.wf`, `Memory.wf`, `Input.wf`, and for the whole state in `State.Inv`. Log 2. -/

namespace Sys2Proof

/-- `trunc_W(v) = v mod 2^W` (`00_scope.md` section 5). -/
def truncW (width : Nat) (v : Nat) : Nat := v % 2 ^ width

end Sys2Proof
end

