-- ==== Sys2Proof/Config.lean ====
section
/-! DEFINITION. What is fixed for a run and not state: the implementation parameters of `00_scope.md` section 4
(`W`, `ROM`, `OVF_MODE`), the launch argument `INPUT` (R13), and the free values of the model. -/

namespace Sys2Proof

/-- The handlers a decode ROM can name: exactly five (R11, R59). -/
inductive Handler where
  | add
  | mul
  | inp
  | out
  | halt
  deriving DecidableEq, Repr

/-- `OVF_MODE`: what ADD and MUL do when the mathematical result does not fit in `W` bits (R12, R78). -/
inductive OvfMode where
  | fault
  | wrap
  deriving DecidableEq, Repr

/-- The contents of the decode ROM: a partial function from opcode values to handlers (R11), held as a table with
strictly rising keys, so that equal ROMs are equal data (log 13). `Rom.build` makes one from a pair list (R55). -/
abbrev Rom := List (Nat × Handler)

/-- The parameter set, fixed before reset (R8, R11, R12). -/
structure Params where
  /-- `W`, the width of a cell in bits (R8) -/
  width : Nat
  /-- `ROM`, the decode ROM (R11) -/
  rom : Rom
  /-- `OVF_MODE` (R12) -/
  ovfMode : OvfMode
  deriving DecidableEq, Repr

/-- `INPUT`, the sequence the input source yields: finite or infinite, fixed before the run (R13, R30). An infinite
sequence is written by its first values and the number of a source that goes on without end; what that source yields
is a free value (log 5). -/
inductive Input where
  | finite (values : List Nat)
  | infinite (first : List Nat) (source : Nat)
  deriving DecidableEq, Repr

/-- FREE VALUE (log 5): what endless source `source` yields at index `k` after the listed first values. Nothing
constrains it; `Input.get?` reads it modulo `2^W`, since input values are unsigned `W`-bit integers (R13). -/
opaque Config.infiniteInput (source k : Nat) : Nat

end Sys2Proof
end

