-- ==== Sys2Proof/Syntax.lean ====
section
/-! DEFINITION. The instructions: one constructor per row of `spec/opcode_table.json` (R49, R54). An operand is the
value of an operand cell, which is an absolute address (R50). -/

namespace Sys2Proof

/-- An instruction with its operand addresses. -/
inductive Instr where
  /-- ADD `a, b, d` (R74): left source, right source, destination -/
  | add (a b d : Nat)
  /-- MUL `a, b, d` (R75): left source, right source, destination -/
  | mul (a b d : Nat)
  /-- IN `d` (R82): destination -/
  | inp (d : Nat)
  /-- OUT `s` (R83): source -/
  | out (s : Nat)
  /-- HALT (R84) -/
  | halt
  deriving DecidableEq, Repr

end Sys2Proof
end

