-- ==== Sys2Proof/WellFormed.lean ====
section
/-! DEFINITION. When an instruction can stand in memory at width `W`: every operand is the value of one cell, an
unsigned integer of `W` bits (R8, R49). Nothing else is checked: an operand cell may hold any value (R58), and whether
the address is below `N` is a fault of the execution, not of the form (R36). -/

namespace Sys2Proof

/-- Every operand fits one cell of `width` bits (R49: "Every field is a full `W`-bit cell"). -/
def Instr.wf (width : Nat) (i : Instr) : Bool :=
  match i with
  | .add a b d => decide (a < 2 ^ width) && decide (b < 2 ^ width) && decide (d < 2 ^ width)
  | .mul a b d => decide (a < 2 ^ width) && decide (b < 2 ^ width) && decide (d < 2 ^ width)
  | .inp d => decide (d < 2 ^ width)
  | .out s => decide (s < 2 ^ width)
  | .halt => true

end Sys2Proof
end

