-- ==== Sys2Proof/Decode.lean ====
section
/-! DEFINITION. The decode ROM (R54 to R58), the decoder, and after it the encoder (R49 to R54).

An instruction is a row of whole cells, not a pattern of bits in a word (R49): the opcode is the whole opcode cell
(R51) and the `k`-th operand is the whole cell at offset `k` (R52). -/

namespace Sys2Proof

/-- ROM construction (R55): from a list of (opcode, handler) pairs, the last pair of an opcode wins. -/
def Rom.build (pairs : List (Nat × Handler)) : Rom :=
  pairs.foldl (fun rom p => Table.insert p.1 p.2 rom) []

/-- ROM lookup (R56): the handler of an opcode value, or "not found". -/
def Rom.lookup (rom : Rom) (op : Nat) : Option Handler := Table.lookup op rom

/-- The ROM of R11 and R54 for given numbers of IN and OUT: `1` ADD, `2` MUL, `99` HALT, `IN_OPCODE`, `OUT_OPCODE`. -/
def Rom.standard (inOpcode outOpcode : Nat) : Rom :=
  Rom.build [(1, .add), (2, .mul), (99, .halt), (inOpcode, .inp), (outOpcode, .out)]

/-- The default ROM: `IN_OPCODE = 3`, `OUT_OPCODE = 4` (R11, R54).
PRESUMED by the spec itself (G1), log 4; unsafe for a claim that names these numbers. -/
def Rom.default : Rom := Rom.standard 3 4

/-- The spec's default parameters: `W = 64` (R8), the default ROM (R11), `OVF_MODE = fault` (R12). Log 2. -/
def Params.default : Params := { width := 64, rom := Rom.default, ovfMode := .fault }

/-- Conditions on a parameter set: `W ≥ 8` (R8); the ROM is in canonical form and its keys are cell values (R11, R59). -/
def Params.wf (p : Params) : Bool :=
  decide (8 ≤ p.width) && Table.sorted p.rom && p.rom.all fun e => decide (e.1 < 2 ^ p.width)

/-- The handler an instruction belongs to. -/
def Instr.handler (i : Instr) : Handler :=
  match i with
  | .add _ _ _ => .add
  | .mul _ _ _ => .mul
  | .inp _ => .inp
  | .out _ => .out
  | .halt => .halt

/-- The operand cells of an instruction, in left-to-right cell order (R49). -/
def Instr.operands (i : Instr) : List Nat :=
  match i with
  | .add a b d => [a, b, d]
  | .mul a b d => [a, b, d]
  | .inp d => [d]
  | .out s => [s]
  | .halt => []

/-- The length in cells, a property of the handler alone (R53): HALT 1, IN 2, OUT 2, ADD 4, MUL 4. -/
def Handler.length (h : Handler) : Nat :=
  match h with
  | .add => 4
  | .mul => 4
  | .inp => 2
  | .out => 2
  | .halt => 1

/-- Decode with any way to read the cell at an offset from the opcode cell: the opcode (R51), then the ROM lookup and
its failure (R64), then the operand cells left to right (R52, R62). The first failure ends it (R37). -/
def decodeFrom {ε : Type} (rom : Rom) (read : Nat → Except ε Nat) (unknown : Nat → ε) : Except ε Instr := do
  let op ← read 0
  match rom.lookup op with
  | none => .error (unknown op)
  | some .add => do
    let a ← read 1
    let b ← read 2
    let d ← read 3
    return .add a b d
  | some .mul => do
    let a ← read 1
    let b ← read 2
    let d ← read 3
    return .mul a b d
  | some .inp => do
    let d ← read 1
    return .inp d
  | some .out => do
    let s ← read 1
    return .out s
  | some .halt => return .halt

/-- Why a list of cells is no instruction. -/
inductive DecodeError where
  /-- the list ends before the cell at this offset -/
  | noCell (offset : Nat)
  /-- the ROM has no entry for the opcode (R58) -/
  | unknownOpcode (op : Nat)
  deriving DecidableEq, Repr

/-- Read the cell at an offset of a list of cells. -/
def readCell (cells : List Nat) (k : Nat) : Except DecodeError Nat :=
  match cells[k]? with
  | some v => .ok v
  | none => .error (.noCell k)

/-- The decoder on a list of cells: the instruction at its front and the cells after it, or why there is none. -/
def decode (rom : Rom) (cells : List Nat) : Except DecodeError (Instr × List Nat) := do
  let i ← decodeFrom rom (readCell cells) .unknownOpcode
  return (i, cells.drop i.handler.length)

/-- Cell `k` of a number that holds cells of `width` bits, the first in its lowest bits. -/
def cellOfBits (width w k : Nat) : Nat := w / 2 ^ (width * k) % 2 ^ width

/-- The four cells (the longest instruction) that a table word stands for: bits from `nbits` up are 0 (log 12). -/
def tableCells (width nbits w : Nat) : List Nat :=
  (List.range 4).map (cellOfBits width (w % 2 ^ nbits))

/-- The instruction the decoder reads from a word of the opcode table, which the table shows for `W = 64` and the
default ROM: bit 0 is the lowest bit of the opcode cell, the next cell's bits count on from it (log 12). -/
def decodeTableWord (nbits w : Nat) : Option Instr :=
  match decode Rom.default (tableCells Params.default.width nbits w) with
  | .ok r => some r.1
  | .error _ => none

/-- The lowest opcode value a ROM maps to a handler, if it maps any (R59 lets it omit one or name it twice; log 13). -/
def Rom.opcodeOf (rom : Rom) (h : Handler) : Option Nat :=
  match rom with
  | [] => none
  | (k, h') :: t => if h' = h then some k else Rom.opcodeOf t h

/-- The encoder: the cells of an instruction under a ROM (R49, R54), or none if the ROM leaves its handler out. -/
def encode (rom : Rom) (i : Instr) : Option (List Nat) :=
  match rom.opcodeOf i.handler with
  | some op => some (op :: i.operands)
  | none => none

/-- The number that holds a list of cells of `width` bits, the first in its lowest bits. -/
def bitsOfCells (width : Nat) : List Nat → Nat
  | [] => 0
  | v :: t => v + 2 ^ width * bitsOfCells width t

/-- The table word of an instruction: its cells under the default ROM at `W = 64`. -/
def encodeTableWord (i : Instr) : Option Nat :=
  (encode Rom.default i).map (bitsOfCells Params.default.width)

end Sys2Proof
end

