-- ==== Sys2Proof/Machine/State.lean ====
section
/-! DEFINITION. The state of CORE as plain data (`10_state.md` R15 to R32), the reasons a step can stop, and the state
after reset. -/

namespace Sys2Proof.Machine

/-- `STATUS.STATE` (R19). The fourth value of the 2-bit field is never produced (U16), so it has no name here. -/
inductive RunState where
  | running
  | halted
  | faulted
  deriving DecidableEq, Repr

/-- `STATUS.CAUSE` (R21, R87). Codes 6 and 7 are never produced and have no name. `loadError` is the loader's code: it
is a value of the field that nothing in CORE produces (R94, log 9). -/
inductive Cause where
  | none
  | malformedProgram
  | outOfBounds
  | inputExhausted
  | loadError
  | arithOverflow
  deriving DecidableEq, Repr

/-- `STATUS`: the record of STATE and CAUSE (R15, R20). -/
structure Status where
  state : RunState
  cause : Cause
  deriving DecidableEq, Repr

/-- The memory `M`: `size` is `N`, and `cells` lists the cells that are not 0, in rising order of address
(R23, R33; the representation is log 6). -/
structure Memory where
  size : Nat
  cells : List (Nat × Nat)
  deriving DecidableEq, Repr

/-- What an address below `N` that `cells` does not list reads as. Every cell of `M` is given by `IMAGE` (R32), so this
fixes how a 0 is written down and no value of the hardware (log 6). -/
def unlistedCell : Nat := 0

/-- The canonical form of a memory, and its bounds: `N ≤ 2^W − 2` (R9); addresses strictly rising and below `N`; each
listed value is one cell (R8) and is not what an unlisted address reads as. -/
def Memory.wf (width : Nat) (m : Memory) : Bool :=
  decide (m.size ≤ 2 ^ width - 2) && Table.sorted m.cells &&
    m.cells.all fun e => decide (e.1 < m.size) && decide (e.2 < 2 ^ width) && !decide (e.2 = unlistedCell)

/-- The architectural state of CORE: exactly the six items of R15 and nothing else. -/
structure ArchState where
  /-- the program counter (R17, R18) -/
  pc : Nat
  /-- `STATUS` (R19 to R21) -/
  status : Status
  /-- `FINFO` (R22) -/
  finfo : Nat
  /-- `M` (R23) -/
  mem : Memory
  /-- `IN_POS` (R24) -/
  inPos : Nat
  /-- `OUT_LOG`, oldest first (R25) -/
  outLog : List Nat
  deriving DecidableEq, Repr

/-- What a model takes as arguments of a run: the parameter set and the launch argument `INPUT` (`00_scope.md` section 4).
It is configuration and no state (R13, R26). -/
structure RunConfig where
  /-- the parameter set (R8, R11, R12) -/
  params : Params
  /-- `INPUT` (R13) -/
  input : Input
  deriving DecidableEq, Repr

/-- What the host's interface hands to a step: the architectural state (R15) and, since a step has no second argument, the
run's configuration beside it (log 1). `archStep` (`Machine/Arch.lean`) is the machine over the six items alone. -/
structure State extends ArchState, RunConfig
  deriving DecidableEq, Repr

/-- The faults a step raises, with their data (R87, R88): what `raise F(info)` is given. LoadError is not among them
(R94). These are not stops of the model: taking one is a next state (R93, `raise`, log 8). -/
inductive Exn where
  /-- the fetched opcode has no entry in the ROM (R89) -/
  | malformedProgram (op : Nat)
  /-- an access at an address at or beyond `N` (R90) -/
  | outOfBounds (a : Nat)
  /-- an IN with no further value (R91) -/
  | inputExhausted
  /-- a result that does not fit, in mode fault (R92); the datum is the truncated result -/
  | arithOverflow (r : Nat)
  deriving DecidableEq, Repr

/-- Why the model stops: a step was asked for where the spec defines none (R19, R99, R112; log 7). Safe: the state the
run ended in stands, and no instruction is involved. -/
inductive Fault where
  /-- raised by `step` when `STATUS.STATE` is Halted; safe -/
  | runHalted
  /-- raised by `step` when `STATUS.STATE` is Faulted; safe -/
  | runFaulted
  deriving DecidableEq, Repr

/-- Refusals. No instruction of this model is refused. -/
inductive Refusal where
  /-- raised by an arm of `exec` whose instruction has no meaning yet (there is none); safe -/
  | notModelled (mnemonic : String)
  deriving DecidableEq, Repr

/-- How a step ends. -/
abbrev Outcome := Host.Outcome State Fault Refusal

/-- The state right after reset (R32, R105) with the spec's default parameters and the launch arguments `IMAGE = []`,
`INPUT = []`. The two arguments are the host's to supply and the spec names none: DESIGN CHOICE, log 3, unsafe.
`launch` is reset with any arguments. -/
def State.reset : State :=
  { params := Params.default
    input := .finite []
    pc := 0
    status := { state := .running, cause := .none }
    finfo := 0
    mem := { size := 0, cells := [] }
    inPos := 0
    outLog := [] }

end Sys2Proof.Machine
end

