-- ==== Sys2Proof/Machine/Flags.lean ====
section
/-! DEFINITION. CORE has no flags, condition codes or predicates (R28). What stands in their place: the overflow test
of ADD and MUL (R78), and the packed form of STATUS (R20) with the codes of its fields (R19, R87). -/

namespace Sys2Proof.Machine

/-- The overflow rule (R78): a mathematical result that fits `W` bits is unchanged; one that does not raises
ArithOverflow with the truncated result in mode fault, and is truncated in mode wrap. -/
def narrow (p : Params) (r : Nat) : Except Exn Nat :=
  if r < 2 ^ p.width then .ok r
  else
    match p.ovfMode with
    | .fault => .error (.arithOverflow (truncW p.width r))
    | .wrap => .ok (truncW p.width r)

/-- The value of `STATUS.STATE` (R19). -/
def RunState.code (r : RunState) : BitVec 2 :=
  match r with
  | .running => 0
  | .halted => 1
  | .faulted => 2

/-- The value of `STATUS.CAUSE` (R87). -/
def Cause.code (c : Cause) : BitVec 3 :=
  match c with
  | .none => 0
  | .malformedProgram => 1
  | .outOfBounds => 2
  | .inputExhausted => 3
  | .loadError => 4
  | .arithOverflow => 5

/-- `STATUS` as the host reads it: `STATUS = {CAUSE[2:0], STATE[1:0]}` (R20). -/
def Status.pack (st : Status) : BitVec 5 := st.cause.code ++ st.state.code

end Sys2Proof.Machine
end

