-- ==== Sys2Proof/Machine/Ops.lean ====
section
/-! DEFINITION. The named operations every instruction is made of: the two memory primitives (R34, R35), fetch-one
(R62), the input pop and the output push (R80, R81), the three choices of the program-counter arbiter (R66, R67, R68)
with taking a fault among them (R93), and the launch (R105). -/

namespace Sys2Proof

/-- `HALT_PC = 2^W − 1`, the halt sentinel (R10). -/
def Params.haltPc (p : Params) : Nat := 2 ^ p.width - 1

/-- `INPUT[k]`, if `k` is below its length; an infinite sequence always answers (R30, R80; log 5). -/
def Input.get? (inp : Input) (width : Nat) (k : Nat) : Option Nat :=
  match inp with
  | .finite values => values[k]?
  | .infinite first source =>
    match first[k]? with
    | some v => some v
    | none => some (truncW width (Config.infiniteInput source (k - first.length)))

/-- Every listed value of INPUT is a cell value (R13, R108). -/
def Input.wf (inp : Input) (width : Nat) : Bool :=
  match inp with
  | .finite values => values.all fun v => decide (v < 2 ^ width)
  | .infinite first _ => first.all fun v => decide (v < 2 ^ width)

end Sys2Proof

namespace Sys2Proof.Machine

/-- `M[a]`, if `a < N` (R33, R34). -/
def Memory.get? (m : Memory) (a : Nat) : Option Nat :=
  if a < m.size then some ((Table.lookup a m.cells).getD unlistedCell) else none

/-- The memory with `M[a] = v`, in canonical form: writing what an unlisted address reads as removes the entry. -/
def Memory.set (m : Memory) (a : Nat) (v : Nat) : Memory :=
  { m with cells := if v = unlistedCell then Table.erase a m.cells else Table.insert a v m.cells }

/-- The cells listed for an image that starts at address `a`. -/
def cellsFrom (a : Nat) : List Nat → List (Nat × Nat)
  | [] => []
  | v :: t => if v = unlistedCell then cellsFrom (a + 1) t else (a, v) :: cellsFrom (a + 1) t

/-- The memory loaded from an image: `N` is its length and `M[a] = IMAGE[a]` (R23, R105). -/
def Memory.ofImage (image : List Nat) : Memory := { size := image.length, cells := cellsFrom 0 image }

/-- The code a fault records in `STATUS.CAUSE` (R87). -/
def Exn.cause (x : Exn) : Cause :=
  match x with
  | .malformedProgram _ => .malformedProgram
  | .outOfBounds _ => .outOfBounds
  | .inputExhausted => .inputExhausted
  | .arithOverflow _ => .arithOverflow

/-- The datum a fault records in `FINFO` (R22, R87, R88). -/
def Exn.info (x : Exn) : Nat :=
  match x with
  | .malformedProgram op => op
  | .outOfBounds a => a
  | .inputExhausted => 0
  | .arithOverflow r => r

/-- Taking a fault, `raise F(info)` (R93, R68): STATE, CAUSE and FINFO are written and nothing else; `pc` is held.
There is no return from it (R99). -/
def raise (x : Exn) (s : State) : State :=
  { s with status := { state := .faulted, cause := x.cause }, finfo := x.info }

/-- Go on with a primitive's result, or take its fault in state `s` and end the step (R61). -/
def orRaise {α : Type} (s : State) (r : Except Exn α) (k : α → Outcome) : Outcome :=
  match r with
  | .ok v => k v
  | .error x => .next (raise x s)

/-- `MemRead(a, 1)` (R34): no side effect; out of bounds raises (R36). -/
def memRead (a : Nat) (s : State) : Except Exn Nat :=
  match s.mem.get? a with
  | some v => .ok v
  | none => .error (.outOfBounds a)

/-- `MemWrite(a, 1, v)` (R35): one cell, or out of bounds and nothing. -/
def memWrite (a v : Nat) (s : State) : Except Exn State :=
  if a < s.mem.size then .ok { s with mem := s.mem.set a v } else .error (.outOfBounds a)

/-- `FetchOne(c)` (R62): the cell at the cursor, paired with the cursor after it. -/
def fetchOne (c : Nat) (s : State) : Except Exn (Nat × Nat) :=
  match memRead c s with
  | .ok v => .ok (v, c + 1)
  | .error x => .error x

/-- `InPop()` (R80): the next value of INPUT and the state with `IN_POS` incremented, or InputExhausted. -/
def inPop (s : State) : Except Exn (Nat × State) :=
  match s.input.get? s.params.width s.inPos with
  | some v => .ok (v, { s with inPos := s.inPos + 1 })
  | none => .error .inputExhausted

/-- `OutPush(v)` (R81): it always succeeds. -/
def outPush (v : Nat) (s : State) : State := { s with outLog := s.outLog ++ [v] }

/-- Normal advance (R66): `pc <- c'`, and STATUS is unchanged. -/
def continueAt (c : Nat) (s : State) : State := { s with pc := c }

/-- Halt (R67): `pc <- HALT_PC` and `STATUS.STATE <- Halted`, nothing else. -/
def haltRun (s : State) : State :=
  { s with pc := s.params.haltPc, status := { s.status with state := .halted } }

/-- Reset with its launch arguments (R105, R32): `Reset(IMAGE, INPUT)` under a parameter set. -/
def launch (p : Params) (image : List Nat) (inp : Input) : State :=
  { params := p
    input := inp
    pc := 0
    status := { state := .running, cause := .none }
    finfo := 0
    mem := Memory.ofImage image
    inPos := 0
    outLog := [] }

/-- The premises of a launch (R108), which `launch` does not check (log 15). -/
def launchOk (p : Params) (image : List Nat) (inp : Input) : Bool :=
  p.wf && decide (image.length ≤ 2 ^ p.width - 2) && (image.all fun v => decide (v < 2 ^ p.width)) &&
    inp.wf p.width

end Sys2Proof.Machine
end

