-- ==== Sys2Proof/Machine/Operands.lean ====
section
/-! DEFINITION. Fetching an instruction from memory: the opcode cell at `pc` and then its operand cells (R52, R61 to
R64). There is one operand form, the absolute address in an operand cell (R50). Also storing a table word where the
next step fetches, for the host's `withFetchWord`. -/

namespace Sys2Proof.Machine

/-- The cell at offset `k` from `pc`, by one fetch-one (R52, R62); the cursor it returns is `pc + k + 1`. -/
def fetchCell (s : State) (k : Nat) : Except Exn Nat :=
  match fetchOne (s.pc + k) s with
  | .ok r => .ok r.1
  | .error x => .error x

/-- The instruction at `pc`: opcode fetch (R63), ROM lookup (R64), operand fetches left to right (R62), with the fault
of the first that fails. Every handler makes its operand fetches before anything else it does (R37), so the whole
instruction is fetched here and `exec` gets the operands (log 10). `M` is read afresh at every step (R45, R46). -/
def fetchInstr (s : State) : Except Exn Instr := decodeFrom s.params.rom (fetchCell s) .malformedProgram

/-- Write a row of cells at consecutive addresses, extending the memory to hold them. -/
def Memory.place (m : Memory) (a : Nat) : List Nat → Memory
  | [] => m
  | v :: t => Memory.place (Memory.set { m with size := max m.size (a + 1) } a v) (a + 1) t

/-- A state in which the longest instruction can stand at `pc`: the state itself, or, where the run is over or `pc` is
too near the end of the address range, the same state started again at address 0 (R106; log 12). -/
def readyToFetch (s : State) : State :=
  if s.status.state = .running ∧ s.pc + 4 ≤ 2 ^ s.params.width - 2 then s
  else { s with pc := 0, status := { state := .running, cause := .none }, finfo := 0 }

/-- The state with a table word's cells stored where the next step fetches (log 12). -/
def loadAtFetch (s : State) (nbits w : Nat) : State :=
  { readyToFetch s with
    mem := Memory.place s.mem (readyToFetch s).pc (tableCells s.params.width nbits w) }

end Sys2Proof.Machine
end

