-- ==== Sys2Proof/Machine/Arithmetic.lean ====
section
/-! DEFINITION. The arithmetic instructions ADD and MUL (`41_arithmetic.md`). -/

namespace Sys2Proof.Machine

/-- What ADD and MUL share after their operand fetches (R74, R75, R37): read `a`, read `b`, compute in the naturals,
test overflow (R78), write `d`, advance past the four cells (R66). Both reads precede the write (R79). -/
def arith (f : Nat → Nat → Nat) (a b d : Nat) (s : State) : Outcome :=
  orRaise s (memRead a s) fun va =>
  orRaise s (memRead b s) fun vb =>
  orRaise s (narrow s.params (f va vb)) fun r =>
  orRaise s (memWrite d r s) fun t =>
  .next (continueAt (s.pc + 4) t)

/-- ADD (R74): `M[d] <- M[a] + M[b]`. -/
def execAdd (a b d : Nat) (s : State) : Outcome := arith (fun x y => x + y) a b d s

/-- MUL (R75): `M[d] <- M[a] * M[b]`. -/
def execMul (a b d : Nat) (s : State) : Outcome := arith (fun x y => x * y) a b d s

end Sys2Proof.Machine
end

