-- ==== Sys2Proof/Machine/Control.lean ====
section
/-! DEFINITION. The control instruction HALT (`43_control.md`); there is no other control transfer (R85). -/

namespace Sys2Proof.Machine

/-- HALT (R84, R67). -/
def execHalt (s : State) : Outcome := .next (haltRun s)

end Sys2Proof.Machine
end

