-- ==== Sys2Proof/Machine/InputOutput.lean ====
section
/-! DEFINITION. The environment instructions IN and OUT (`42_io.md`). -/

namespace Sys2Proof.Machine

/-- IN (R82): pop, then write; a destination out of bounds faults after the pop, so `IN_POS` keeps its increment
(D11). -/
def execInp (d : Nat) (s : State) : Outcome :=
  orRaise s (inPop s) fun r =>
  orRaise r.2 (memWrite d r.1 r.2) fun t =>
  .next (continueAt (s.pc + 2) t)

/-- OUT (R83): read, then push; memory is not written. -/
def execOut (a : Nat) (s : State) : Outcome :=
  orRaise s (memRead a s) fun v =>
  .next (continueAt (s.pc + 2) (outPush v s))

end Sys2Proof.Machine
end

