-- ==== Sys2Proof/Machine/Step.lean ====
section
/-! DEFINITION. The step (R61): fetch, decode, execute and the program-counter arbiter, as one indivisible step (R14). -/

namespace Sys2Proof.Machine

/-- One step. It is defined only when `STATUS.STATE` is Running (R61, R19): elsewhere the model stops (log 7). A fault
of the fetch or of the instruction is taken, which is a next state (R68, R93). -/
def step (s : State) : Host.Outcome State Fault Refusal :=
  match s.status.state with
  | .running => orRaise s (fetchInstr s) fun i => exec i s
  | .halted => .fault .runHalted
  | .faulted => .fault .runFaulted

/-- `s` with a table word stored where `step` fetches its next instruction, so that the next step runs it (log 12). -/
def State.withFetchWord (s : State) (nbits w : Nat) : State := loadAtFetch s nbits w

end Sys2Proof.Machine
end

