-- ==== Sys2Proof/Machine/Arch.lean ====
section
/-! DEFINITION. CORE as R15 has it: a machine whose state type is exactly the six architectural items, with the run's
configuration an argument (`00_scope.md` section 4). -/

namespace Sys2Proof.Machine

/-- One step over the six items of R15, under a configuration. -/
def archStep (c : RunConfig) (a : ArchState) : Host.Outcome ArchState Fault Refusal :=
  match step { toArchState := a, toRunConfig := c } with
  | .next t => .next t.toArchState
  | .fault r => .fault r
  | .refused r => .refused r

/-- An outcome over the six items, with a configuration put beside the next state. -/
def withConfig (c : RunConfig) (o : Host.Outcome ArchState Fault Refusal) : Outcome :=
  match o with
  | .next a => .next { toArchState := a, toRunConfig := c }
  | .fault r => .fault r
  | .refused r => .refused r

end Sys2Proof.Machine
end

