-- ==== Sys2Proof/Machine/HostInterface.lean ====
section
/-! DEFINITION. The run loop (R70, R71) and the host's side of the interface (R29): reset/load, step, run, and the
reads. The table of R29 is complete: the host can do nothing else to CORE. Log 14, log 15. -/

namespace Sys2Proof.Machine

/-- A run of at most `bound` steps (R70, R71): it stops early where no step is defined, and reaching the bound leaves
the state as after the last completed step. -/
def run (bound : Nat) (s : State) : State :=
  match bound with
  | 0 => s
  | k + 1 =>
    match step s with
    | .next t => run k t
    | .fault _ => s
    | .refused _ => s

/-- `⌈N / 2⌉ + 1`, within which every run ends (R71). -/
def runBound (s : State) : Nat := (s.mem.size + 1) / 2 + 1

/-- What the host can do to CORE (R29, first three rows). -/
inductive HostAction where
  /-- reset/load with a parameter set, `IMAGE` and `INPUT`; any time, at a step boundary (R105, R110) -/
  | reset (p : Params) (image : List Nat) (inp : Input)
  /-- one step; only while Running -/
  | step
  /-- run, with or without a bound on the number of steps; only while Running -/
  | run (bound : Option Nat)
  deriving DecidableEq, Repr

/-- The effect of a host action, or none where the host may not take it (R29), or gives launch arguments outside their
ranges (R108, U20; log 15). A run without a bound is a run to its end (log 14). -/
def hostAct (act : HostAction) (s : State) : Option State :=
  match act with
  | .reset p image inp => if launchOk p image inp then some (launch p image inp) else none
  | .step =>
    match step s with
    | .next t => some t
    | .fault _ => none
    | .refused _ => none
  | .run bound => if s.status.state = .running then some (run (bound.getD (runBound s)) s) else none

/-- Read status (R29): `pc`, `STATUS` packed as in R20, and `FINFO`; any time between steps. -/
def hostReadStatus (s : State) : Nat × BitVec 5 × Nat := (s.pc, s.status.pack, s.finfo)

/-- Read memory (R29): only after the run, and only at an address below `N`. -/
def hostReadMem (s : State) (a : Nat) : Option Nat :=
  if s.status.state = .running then none else s.mem.get? a

/-- Read output (R29): any time between steps. -/
def hostReadOutput (s : State) : List Nat := s.outLog

/-- The result of a run (R111): memory, output log and STATUS once it has ended, and none before. It ended successfully
exactly when STATE is Halted. -/
def runResult (s : State) : Option (Memory × List Nat × Status) :=
  if s.status.state = .running then none else some (s.mem, s.outLog, s.status)

end Sys2Proof.Machine
end

