-- ==== Sys2Proof/Safety.lean ====
section
/-! DEFINITION. What a good state of CORE is, in the terms the statements use: the invariant. -/

namespace Sys2Proof.Machine

/-- What STATUS, FINFO and the rest of the state say to each other when a run ended in a fault (R21, R22, R87 to R92,
R94): CAUSE is one of the four kinds CORE raises, and FINFO is its datum. -/
def State.faultRecordOk (s : State) : Prop :=
  match s.status.cause with
  | .none => False
  | .malformedProgram => s.mem.get? s.pc = some s.finfo ∧ s.params.rom.lookup s.finfo = none
  | .outOfBounds => s.mem.size ≤ s.finfo
  | .inputExhausted => s.finfo = 0 ∧ s.input.get? s.params.width s.inPos = none
  | .loadError => False
  | .arithOverflow => s.params.ovfMode = .fault

/-- `IN_POS` is at most the length of a finite INPUT (R24, R80). -/
def State.inPosOk (s : State) : Prop :=
  match s.input with
  | .finite values => s.inPos ≤ values.length
  | .infinite _ _ => True

/-- The invariant of CORE: it holds after every admitted launch, and every step keeps it. -/
structure State.Inv (s : State) : Prop where
  /-- the parameter set is admitted (R8, R11, R59) -/
  params : s.params.wf = true
  /-- every listed input value is one cell (R13, R108) -/
  input : s.input.wf s.params.width = true
  /-- the memory has its canonical form, `N ≤ 2^W − 2`, and every cell is below `2^W` (R8, R9) -/
  mem : s.mem.wf s.params.width = true
  /-- FINFO is one cell (R22) -/
  finfo : s.finfo < 2 ^ s.params.width
  /-- every emitted value is one cell (R25) -/
  outLog : ∀ v ∈ s.outLog, v < 2 ^ s.params.width
  /-- IN_POS has not passed the end of INPUT (R24) -/
  inPos : s.inPosOk
  /-- `pc` is at most `N`, unless the run is Halted, and then it is the sentinel (R17, R18, R69) -/
  pc : if s.status.state = .halted then s.pc = s.params.haltPc else s.pc ≤ s.mem.size
  /-- CAUSE and FINFO are 0 while Running or Halted, and a fault's record otherwise (R21, R22) -/
  status : if s.status.state = .faulted then s.faultRecordOk else s.status.cause = .none ∧ s.finfo = 0

end Sys2Proof.Machine
end

