-- ==== Sys2Proof/Certificates/Slice0/Obligations.lean ====
section
/-! DEFINITION. The statements for the provers, in the order of the spec's files: encoding, the step, the instructions,
the primitives, reset, the invariant, runs, and what a program cannot observe. Each `def Obligations.<Name>` has its
row in `OBLIGATIONS.json`. -/

open Sys2Proof Sys2Proof.Machine

/-! ### Encoding and the decode ROM (`30_encoding.md`) -/

/-- Decoding an encoded instruction gives it back, with the cells after it, for all five instructions, every operand
value and every ROM in canonical form that names the handler. -/
def Obligations.EncodedInstructionDecodesBack : Prop :=
  ∀ (rom : Rom) (i : Instr) (cells rest : List Nat), Table.sorted rom = true → encode rom i = some cells →
    decode rom (cells ++ rest) = .ok (i, rest)

/-- What decodes is exactly an opcode cell the ROM maps to the handler, then the operand cells unchanged (R49, R52). -/
def Obligations.DecodedCellsAreOpcodeThenOperands : Prop :=
  ∀ (rom : Rom) (cells rest : List Nat) (i : Instr), decode rom cells = .ok (i, rest) →
    ∃ op, rom.lookup op = some i.handler ∧ cells = op :: i.operands ++ rest

/-- The packed form of the opcode table at `W = 64` loses no bit: every instruction whose operands fit has a table
word, of its own length in bits, that decodes to it. (The packing of cells into one number is the table's, log 12.) -/
def Obligations.TableWordDecodesBack : Prop :=
  ∀ i : Instr, i.wf 64 = true → ∃ w, encodeTableWord i = some w ∧ w < 2 ^ (64 * i.handler.length) ∧
    decodeTableWord (64 * i.handler.length) w = some i

/-- Cells written out from the spec's formats (R49) under its opcode map (R54) decode to what they stand for. The packing
of the cells into one number is the model's (log 12, DESIGN CHOICE), and the numbers 3 and 4 of IN and OUT are the
spec's default from general knowledge (log 4, PRESUMED). -/
def Obligations.WordsWrittenFromTheFormatsDecode : Prop :=
  decodeTableWord 256 (1 + 9 * 2 ^ 64 + 10 * 2 ^ 128 + 3 * 2 ^ 192) = some (.add 9 10 3) ∧
  decodeTableWord 256 (2 + 3 * 2 ^ 64 + 11 * 2 ^ 128) = some (.mul 3 11 0) ∧
  decodeTableWord 128 (3 + 3 * 2 ^ 64) = some (.inp 3) ∧
  decodeTableWord 128 (4 + 5 * 2 ^ 64) = some (.out 5) ∧
  decodeTableWord 64 99 = some .halt ∧ decodeTableWord 64 0 = none ∧ decodeTableWord 64 1001 = none

/-- R54: the opcode map of the default ROM, with `IN_OPCODE` and `OUT_OPCODE` any two values distinct from each other
and from 1, 2 and 99, and 3 and 4 in the default; every other value is in no map; and the lengths. (That 3 and 4 are the default is the spec's
own, from general knowledge: D4, G1, log 4.) -/
def Obligations.OpcodeMapOfTheDefaultRom : Prop :=
  Rom.default = Rom.standard 3 4 ∧
  (∀ inOp outOp op : Nat, inOp ≠ outOp → inOp ∉ [1, 2, 99] → outOp ∉ [1, 2, 99] →
    (Rom.standard inOp outOp).lookup op =
      if op = 1 then some .add else if op = 2 then some .mul else if op = 99 then some .halt
      else if op = inOp then some .inp else if op = outOp then some .out else none) ∧
  Handler.add.length = 4 ∧ Handler.mul.length = 4 ∧ Handler.inp.length = 2 ∧ Handler.out.length = 2 ∧
  Handler.halt.length = 1

/-- R55: `ROM(k)` is the handler of the last pair with opcode `k`, and undefined if no pair has it. -/
def Obligations.RomKeepsTheLastPairOfAnOpcode : Prop :=
  ∀ (pairs : List (Nat × Handler)) (k : Nat),
    (∀ (j : Nat) (h : Handler), pairs[j]? = some (k, h) →
      (∀ (j' : Nat) (h' : Handler), j < j' → pairs[j']? ≠ some (k, h')) → (Rom.build pairs).lookup k = some h) ∧
    ((∀ h : Handler, (k, h) ∉ pairs) → (Rom.build pairs).lookup k = none)

/-! ### The step (`40_fetch_decode.md`, `60_exceptions.md`) -/

/-- A step of a Running machine is the execution of the instruction that the cells at `pc` decode to (R61). -/
def Obligations.StepRunsTheInstructionAtPc : Prop :=
  ∀ (s : State) (cells rest : List Nat) (i : Instr), s.status.state = .running →
    (∀ (k : Nat) (v : Nat), cells[k]? = some v → s.mem.get? (s.pc + k) = some v) →
    decode s.params.rom cells = .ok (i, rest) → step s = exec i s

/-- A step whose opcode cell lies beyond memory ends with OutOfBounds at `pc`, and nothing else changes (R63). -/
def Obligations.OpcodeFetchBeyondMemoryFaults : Prop :=
  ∀ s : State, s.status.state = .running → s.mem.size ≤ s.pc →
    step s = .next { s with status := { state := .faulted, cause := .outOfBounds }, finfo := s.pc }

/-- A step whose `k`-th operand cell is the first that lies beyond memory ends with OutOfBounds there, whatever the
cells before it hold (R96, third place of the order). -/
def Obligations.OperandFetchBeyondMemoryFaults : Prop :=
  ∀ (s : State) (op : Nat) (h : Handler) (k : Nat), s.status.state = .running → s.mem.get? s.pc = some op →
    s.params.rom.lookup op = some h → 1 ≤ k → k < h.length → s.pc + k = s.mem.size →
    step s = .next { s with status := { state := .faulted, cause := .outOfBounds }, finfo := s.pc + k }

/-- R89: MalformedProgram is raised when, and only when, the value fetched from `M[pc]` has no entry in the ROM, and
then nothing but STATUS and FINFO changes, whatever the operand cells are. -/
def Obligations.MalformedProgramExactlyOnUnknownOpcode : Prop :=
  ∀ s t : State, s.status.state = .running → step s = .next t →
    ((t.status = { state := .faulted, cause := .malformedProgram } ↔
      ∃ op, s.mem.get? s.pc = some op ∧ s.params.rom.lookup op = none) ∧
    ∀ op, s.mem.get? s.pc = some op → s.params.rom.lookup op = none →
      t = { s with status := { state := .faulted, cause := .malformedProgram }, finfo := op })

/-- R36: no access outside `0 .. N − 1` is satisfied. A step that does not fault has all its cells and every address its
operands name below `N`, and memory has not grown. -/
def Obligations.NoStepSucceedsWithAnAccessOutOfBounds : Prop :=
  ∀ s t : State, s.status.state = .running → step s = .next t → t.status.state ≠ .faulted →
    t.mem.size = s.mem.size ∧ ∃ i, fetchInstr s = .ok i ∧ s.pc + i.handler.length ≤ s.mem.size ∧
      ∀ a ∈ i.operands, a < s.mem.size

/-- An OutOfBounds fault reports an address at or beyond `N` that the step accesses: the opcode cell, an operand cell of
the handler that the ROM gives the opcode, so within its length, or an operand of the fetched instruction (R37, R88, R90). -/
def Obligations.OutOfBoundsReportsAnAccessedAddress : Prop :=
  ∀ s t : State, s.status.state = .running → step s = .next t →
    t.status = { state := .faulted, cause := .outOfBounds } →
    s.mem.size ≤ t.finfo ∧ (t.finfo = s.pc ∨
      (∃ op h, s.mem.get? s.pc = some op ∧ s.params.rom.lookup op = some h ∧ s.pc < t.finfo ∧
        t.finfo < s.pc + h.length) ∨
      ∃ i, fetchInstr s = .ok i ∧ t.finfo ∈ i.operands)

/-- R91: InputExhausted is raised when, and only when, an IN reaches its pop with no further value, and then nothing is
popped or written. -/
def Obligations.InputExhaustedExactlyOnAnEmptySource : Prop :=
  ∀ s t : State, s.status.state = .running → step s = .next t →
    ((t.status = { state := .faulted, cause := .inputExhausted } ↔
      ∃ d, fetchInstr s = .ok (.inp d) ∧ s.input.get? s.params.width s.inPos = none) ∧
    ∀ d, fetchInstr s = .ok (.inp d) → s.input.get? s.params.width s.inPos = none →
      t = { s with status := { state := .faulted, cause := .inputExhausted }, finfo := 0 })

/-- R92: ArithOverflow is raised when, and only when, the mode is fault and the mathematical result of an ADD or MUL,
whose sources could be read, is `2^W` or more; FINFO is the truncated result and nothing else changes, whatever the
destination. (The spec's own decision D6, log 11.) -/
def Obligations.ArithOverflowExactlyOnAResultTooLarge : Prop :=
  ∀ s t : State, s.status.state = .running → step s = .next t →
    ((t.status = { state := .faulted, cause := .arithOverflow } ↔
      s.params.ovfMode = .fault ∧ ∃ a b d va vb, s.mem.get? a = some va ∧ s.mem.get? b = some vb ∧
        ((fetchInstr s = .ok (.add a b d) ∧ 2 ^ s.params.width ≤ va + vb) ∨
        (fetchInstr s = .ok (.mul a b d) ∧ 2 ^ s.params.width ≤ va * vb))) ∧
    ∀ a b d va vb r, s.mem.get? a = some va → s.mem.get? b = some vb →
      ((fetchInstr s = .ok (.add a b d) ∧ r = va + vb) ∨ (fetchInstr s = .ok (.mul a b d) ∧ r = va * vb)) →
      2 ^ s.params.width ≤ r → s.params.ovfMode = .fault →
      t = { s with status := { state := .faulted, cause := .arithOverflow }, finfo := r % 2 ^ s.params.width })

/-- R68: on a fault `pc` is held, STATE is Faulted, CAUSE and FINFO are the fault's, memory and the output log are
unchanged, `IN_POS` too except after an IN whose destination is out of bounds, and no further step is taken. (The held `pc` is
marked in R68 as derived; the IN that popped is the spec's decision D11, log 11; that a step asked for after the fault
answers a fault of the model is the model's DESIGN CHOICE, log 7.) -/
def Obligations.FaultHoldsPcAndMemory : Prop :=
  ∀ s t : State, s.status.state = .running → step s = .next t → t.status.state = .faulted →
    t.pc = s.pc ∧ t.mem = s.mem ∧ t.outLog = s.outLog ∧ t.params = s.params ∧ t.input = s.input ∧
    t.faultRecordOk ∧ (∃ x : Exn, t.status.cause = x.cause ∧ t.finfo = x.info) ∧
    (t.inPos = s.inPos ∨ ∃ d v, fetchInstr s = .ok (.inp d) ∧ s.mem.size ≤ d ∧
      s.input.get? s.params.width s.inPos = some v ∧ t.inPos = s.inPos + 1) ∧
    ∃ r, step t = .fault r

/-- R86: the value of `pc` and of STATE at the end of a step, by what happened in it. (R86 marks its table as derived
from R66 to R68.) -/
def Obligations.ProgramCounterAfterAStep : Prop :=
  ∀ s t : State, s.status.state = .running → step s = .next t →
    ((∃ a b d, fetchInstr s = .ok (.add a b d) ∨ fetchInstr s = .ok (.mul a b d)) ∧ t.pc = s.pc + 4 ∧
      t.status.state = .running) ∨
    ((∃ a, fetchInstr s = .ok (.inp a) ∨ fetchInstr s = .ok (.out a)) ∧ t.pc = s.pc + 2 ∧
      t.status.state = .running) ∨
    (fetchInstr s = .ok .halt ∧ t.pc = 2 ^ s.params.width - 1 ∧ t.status.state = .halted) ∨
    (fetchInstr s ≠ .ok .halt ∧ t.pc = s.pc ∧ t.status.state = .faulted)

/-- R69: after a step that goes on, `pc` is at most `N`, so it is below the sentinel. (R69 marks it as derived.) -/
def Obligations.NoCursorReachesTheSentinel : Prop :=
  ∀ s t : State, 8 ≤ s.params.width → s.mem.size ≤ 2 ^ s.params.width - 2 → step s = .next t →
    t.status.state = .running → t.pc ≤ t.mem.size ∧ t.mem.size ≤ 2 ^ t.params.width - 2 ∧ t.pc < t.params.haltPc

/-! ### The instructions (`41_arithmetic.md`, `42_io.md`, `43_control.md`) -/

/-- R74: ADD, whole: the opcode of the default ROM, the operand fetches, the source reads, the overflow test, the write
and the advance, with each fault in the order it is tested. (The overflow mode is the spec's decision D6, the order of the
two source reads D10: log 11.) -/
def Obligations.AddFollowsItsRule : Prop :=
  Rom.default.lookup 1 = some .add ∧
  ∀ (s : State) (op : Nat), s.status.state = .running → s.mem.get? s.pc = some op →
    s.params.rom.lookup op = some .add →
    step s =
      match s.mem.get? (s.pc + 1), s.mem.get? (s.pc + 2), s.mem.get? (s.pc + 3) with
      | none, _, _ => .next { s with status := { state := .faulted, cause := .outOfBounds }, finfo := s.pc + 1 }
      | some _, none, _ => .next { s with status := { state := .faulted, cause := .outOfBounds }, finfo := s.pc + 2 }
      | some _, some _, none =>
        .next { s with status := { state := .faulted, cause := .outOfBounds }, finfo := s.pc + 3 }
      | some a, some b, some d =>
        match s.mem.get? a, s.mem.get? b with
        | none, _ => .next { s with status := { state := .faulted, cause := .outOfBounds }, finfo := a }
        | some _, none => .next { s with status := { state := .faulted, cause := .outOfBounds }, finfo := b }
        | some va, some vb =>
          if 2 ^ s.params.width ≤ va + vb ∧ s.params.ovfMode = .fault then
            .next { s with status := { state := .faulted, cause := .arithOverflow }
                           finfo := (va + vb) % 2 ^ s.params.width }
          else if d < s.mem.size then
            .next { s with mem := s.mem.set d ((va + vb) % 2 ^ s.params.width), pc := s.pc + 4 }
          else .next { s with status := { state := .faulted, cause := .outOfBounds }, finfo := d }

/-- R75: MUL, whole, in the same form. (The overflow mode is the spec's decision D6, the order of the two source reads
D10: log 11.) -/
def Obligations.MulFollowsItsRule : Prop :=
  Rom.default.lookup 2 = some .mul ∧
  ∀ (s : State) (op : Nat), s.status.state = .running → s.mem.get? s.pc = some op →
    s.params.rom.lookup op = some .mul →
    step s =
      match s.mem.get? (s.pc + 1), s.mem.get? (s.pc + 2), s.mem.get? (s.pc + 3) with
      | none, _, _ => .next { s with status := { state := .faulted, cause := .outOfBounds }, finfo := s.pc + 1 }
      | some _, none, _ => .next { s with status := { state := .faulted, cause := .outOfBounds }, finfo := s.pc + 2 }
      | some _, some _, none =>
        .next { s with status := { state := .faulted, cause := .outOfBounds }, finfo := s.pc + 3 }
      | some a, some b, some d =>
        match s.mem.get? a, s.mem.get? b with
        | none, _ => .next { s with status := { state := .faulted, cause := .outOfBounds }, finfo := a }
        | some _, none => .next { s with status := { state := .faulted, cause := .outOfBounds }, finfo := b }
        | some va, some vb =>
          if 2 ^ s.params.width ≤ va * vb ∧ s.params.ovfMode = .fault then
            .next { s with status := { state := .faulted, cause := .arithOverflow }
                           finfo := (va * vb) % 2 ^ s.params.width }
          else if d < s.mem.size then
            .next { s with mem := s.mem.set d ((va * vb) % 2 ^ s.params.width), pc := s.pc + 4 }
          else .next { s with status := { state := .faulted, cause := .outOfBounds }, finfo := d }

/-- R82: IN, whole: operand fetch, pop, write, with each fault in the order it is tested; a destination out of bounds
faults after the pop. (That order is the spec's decision D11, the number 3 its default D4: log 4, log 11.) -/
def Obligations.InFollowsItsRule : Prop :=
  Rom.default.lookup 3 = some .inp ∧
  ∀ (s : State) (op : Nat), s.status.state = .running → s.mem.get? s.pc = some op →
    s.params.rom.lookup op = some .inp →
    step s =
      match s.mem.get? (s.pc + 1) with
      | none => .next { s with status := { state := .faulted, cause := .outOfBounds }, finfo := s.pc + 1 }
      | some d =>
        match s.input.get? s.params.width s.inPos with
        | none => .next { s with status := { state := .faulted, cause := .inputExhausted }, finfo := 0 }
        | some v =>
          if d < s.mem.size then
            .next { s with inPos := s.inPos + 1, mem := s.mem.set d v, pc := s.pc + 2 }
          else
            .next { s with inPos := s.inPos + 1
                           status := { state := .faulted, cause := .outOfBounds }, finfo := d }

/-- R83: OUT, whole: operand fetch, read, push; on a fault nothing is emitted. (The number 4 is the spec's default, D4:
log 4.) -/
def Obligations.OutFollowsItsRule : Prop :=
  Rom.default.lookup 4 = some .out ∧
  ∀ (s : State) (op : Nat), s.status.state = .running → s.mem.get? s.pc = some op →
    s.params.rom.lookup op = some .out →
    step s =
      match s.mem.get? (s.pc + 1) with
      | none => .next { s with status := { state := .faulted, cause := .outOfBounds }, finfo := s.pc + 1 }
      | some a =>
        match s.mem.get? a with
        | none => .next { s with status := { state := .faulted, cause := .outOfBounds }, finfo := a }
        | some v => .next { s with outLog := s.outLog ++ [v], pc := s.pc + 2 }

/-- R84: HALT, whole: it fetches no operand, so it needs no cell after its own; `pc` becomes the sentinel and STATE
Halted, nothing else changes, and no further step is taken. (That a step asked for after it answers the model's fault
`runHalted` is the model's DESIGN CHOICE, log 7.) -/
def Obligations.HaltFollowsItsRule : Prop :=
  Rom.default.lookup 99 = some .halt ∧
  ∀ (s : State) (op : Nat), s.status.state = .running → s.mem.get? s.pc = some op →
    s.params.rom.lookup op = some .halt →
    ∃ t, step s = .next t ∧
      t = { s with pc := 2 ^ s.params.width - 1, status := { state := .halted, cause := s.status.cause } } ∧
      step t = .fault .runHalted

/-- ADD completes whenever the machine is Running, both sources and the destination are below `N`, and the sum fits or
the mode is wrap: the destination holds the sum, reduced modulo `2^W` only where it does not fit, every other cell is as
before, `pc` has advanced by 4, and everything else is unchanged. Sources and destination may coincide (R79). -/
def Obligations.AddCompletes : Prop :=
  ∀ (s : State) (a b d va vb : Nat), s.status.state = .running → s.mem.get? a = some va → s.mem.get? b = some vb →
    d < s.mem.size → (va + vb < 2 ^ s.params.width ∨ s.params.ovfMode = .wrap) →
    ∃ t, exec (.add a b d) s = .next t ∧
      t.mem.get? d = some (if va + vb < 2 ^ s.params.width then va + vb else (va + vb) % 2 ^ s.params.width) ∧
      (∀ x, x ≠ d → t.mem.get? x = s.mem.get? x) ∧ t.pc = s.pc + 4 ∧ t.status = s.status ∧ t.finfo = s.finfo ∧
      t.inPos = s.inPos ∧ t.outLog = s.outLog ∧ t.params = s.params ∧ t.input = s.input

/-- MUL completes under the same conditions on its product, with the product in the destination. -/
def Obligations.MulCompletes : Prop :=
  ∀ (s : State) (a b d va vb : Nat), s.status.state = .running → s.mem.get? a = some va → s.mem.get? b = some vb →
    d < s.mem.size → (va * vb < 2 ^ s.params.width ∨ s.params.ovfMode = .wrap) →
    ∃ t, exec (.mul a b d) s = .next t ∧
      t.mem.get? d = some (if va * vb < 2 ^ s.params.width then va * vb else (va * vb) % 2 ^ s.params.width) ∧
      (∀ x, x ≠ d → t.mem.get? x = s.mem.get? x) ∧ t.pc = s.pc + 4 ∧ t.status = s.status ∧ t.finfo = s.finfo ∧
      t.inPos = s.inPos ∧ t.outLog = s.outLog ∧ t.params = s.params ∧ t.input = s.input

/-- IN completes whenever the machine is Running, INPUT has a further value and the destination is below `N`: the
destination holds that value unchanged, `IN_POS` is one more, `pc` has advanced by 2, and everything else is as before. -/
def Obligations.InCompletes : Prop :=
  ∀ (s : State) (d v : Nat), s.status.state = .running → s.input.get? s.params.width s.inPos = some v →
    d < s.mem.size →
    ∃ t, exec (.inp d) s = .next t ∧ t.mem.get? d = some v ∧ (∀ x, x ≠ d → t.mem.get? x = s.mem.get? x) ∧
      t.inPos = s.inPos + 1 ∧ t.pc = s.pc + 2 ∧ t.status = s.status ∧ t.finfo = s.finfo ∧ t.outLog = s.outLog ∧
      t.params = s.params ∧ t.input = s.input

/-- OUT completes whenever the machine is Running and its source is below `N`: the source's value is the last of the
output log, `pc` has advanced by 2, and everything else, memory too, is as before. HALT completes whenever the machine
is Running: the run is Halted at the sentinel and everything else is as before. -/
def Obligations.OutAndHaltComplete : Prop :=
  (∀ (s : State) (a v : Nat), s.status.state = .running → s.mem.get? a = some v →
    exec (.out a) s = .next { s with outLog := s.outLog ++ [v], pc := s.pc + 2 }) ∧
  ∀ s : State, s.status.state = .running →
    exec .halt s = .next { s with pc := 2 ^ s.params.width - 1
                                  status := { state := .halted, cause := s.status.cause } }

/-- The frame of ADD and MUL, faults included: INPUT, the parameters, `N`, `IN_POS` and the output log are unchanged,
every cell but the destination reads as before, and STATUS and FINFO are unchanged unless a fault was taken, which
leaves `pc` and all of memory. -/
def Obligations.ArithmeticFrame : Prop :=
  ∀ (s t : State) (a b d : Nat), exec (.add a b d) s = .next t ∨ exec (.mul a b d) s = .next t →
    t.params = s.params ∧ t.input = s.input ∧ t.mem.size = s.mem.size ∧ t.inPos = s.inPos ∧ t.outLog = s.outLog ∧
    (∀ x, x ≠ d → t.mem.get? x = s.mem.get? x) ∧
    ((t.status = s.status ∧ t.finfo = s.finfo) ∨ (t.status.state = .faulted ∧ t.pc = s.pc ∧ t.mem = s.mem))

/-- The frame of IN, faults included: `IN_POS` is as before or one more, every cell but the destination reads as before,
and on a fault `pc` and all of memory are as before. -/
def Obligations.InFrame : Prop :=
  ∀ (s t : State) (d : Nat), exec (.inp d) s = .next t →
    t.params = s.params ∧ t.input = s.input ∧ t.mem.size = s.mem.size ∧ t.outLog = s.outLog ∧
    (t.inPos = s.inPos ∨ t.inPos = s.inPos + 1) ∧ (∀ x, x ≠ d → t.mem.get? x = s.mem.get? x) ∧
    ((t.status = s.status ∧ t.finfo = s.finfo) ∨ (t.status.state = .faulted ∧ t.pc = s.pc ∧ t.mem = s.mem))

/-- The frame of the forms that store nothing, OUT and HALT, faults included: memory, `IN_POS`, INPUT and the parameters
are unchanged; HALT leaves the output log, CAUSE and FINFO too; OUT appends at most one value, and nothing on a fault. -/
def Obligations.OutAndHaltFrame : Prop :=
  (∀ (s t : State) (a : Nat), exec (.out a) s = .next t →
    t.mem = s.mem ∧ t.inPos = s.inPos ∧ t.params = s.params ∧ t.input = s.input ∧
    ((t.status = s.status ∧ t.finfo = s.finfo ∧ ∃ v, t.outLog = s.outLog ++ [v]) ∨
      (t.status.state = .faulted ∧ t.pc = s.pc ∧ t.outLog = s.outLog))) ∧
  ∀ s t : State, exec .halt s = .next t →
    t.mem = s.mem ∧ t.inPos = s.inPos ∧ t.params = s.params ∧ t.input = s.input ∧ t.outLog = s.outLog ∧
    t.finfo = s.finfo ∧ t.status.cause = s.status.cause

/-- R78: overflow of ADD and MUL in both modes, the test standing after the source reads and before the write: in mode
fault nothing is written and the fault is ArithOverflow even where the destination is out of bounds; in mode wrap the
destination gets the result modulo `2^W`. (The spec's own decision D6, log 11.) -/
def Obligations.OverflowFollowsTheMode : Prop :=
  ∀ (s : State) (a b d va vb r : Nat) (i : Instr), s.status.state = .running → s.mem.get? a = some va →
    s.mem.get? b = some vb →
    ((i = .add a b d ∧ r = va + vb) ∨ (i = .mul a b d ∧ r = va * vb)) → 2 ^ s.params.width ≤ r →
    (s.params.ovfMode = .fault → exec i s =
      .next { s with status := { state := .faulted, cause := .arithOverflow }, finfo := r % 2 ^ s.params.width }) ∧
    (s.params.ovfMode = .wrap → d < s.mem.size →
      ∃ t, exec i s = .next t ∧ t.mem.get? d = some (r % 2 ^ s.params.width) ∧ t.pc = s.pc + 4 ∧
        t.status = s.status)

/-- Addition and multiplication commute in value: with both sources below `N`, swapping them changes nothing at all,
in either mode and whatever the destination (R76, R77). -/
def Obligations.SwappingSourcesChangesNothing : Prop :=
  ∀ (s : State) (a b d : Nat), a < s.mem.size → b < s.mem.size →
    exec (.add a b d) s = exec (.add b a d) s ∧ exec (.mul a b d) s = exec (.mul b a d) s

/-- When both sources of ADD or MUL are out of bounds the left one is reported, and a source out of bounds is reported
before any overflow or destination (R37, R96). The order of the two source reads is the spec's decision D10. -/
def Obligations.LeftSourceIsReportedFirst : Prop :=
  ∀ (s : State) (a b d : Nat) (i : Instr), s.status.state = .running → (i = .add a b d ∨ i = .mul a b d) →
    (s.mem.size ≤ a → exec i s =
      .next { s with status := { state := .faulted, cause := .outOfBounds }, finfo := a }) ∧
    (a < s.mem.size → s.mem.size ≤ b → exec i s =
      .next { s with status := { state := .faulted, cause := .outOfBounds }, finfo := b })

/-! ### The primitives (`20_memory.md`, `40_fetch_decode.md`, `42_io.md`, `60_exceptions.md`) -/

/-- R34: `MemRead` returns `M[a]` below `N` and raises OutOfBounds at or beyond it. -/
def Obligations.MemReadIsBoundsChecked : Prop :=
  ∀ (s : State) (a : Nat),
    (a < s.mem.size → ∃ v, s.mem.get? a = some v ∧ memRead a s = .ok v) ∧
    (s.mem.size ≤ a → memRead a s = .error (.outOfBounds a))

/-- R35: `MemWrite` sets one cell and leaves every other cell and everything else unchanged, so that every later read of
it returns the new value; at or beyond `N` it raises OutOfBounds and there is no new state. -/
def Obligations.MemWriteChangesOneCell : Prop :=
  ∀ (s : State) (a v : Nat), v < 2 ^ s.params.width →
    (a < s.mem.size → ∃ t, memWrite a v s = .ok t ∧ memRead a t = .ok v ∧
      (∀ b, b ≠ a → memRead b t = memRead b s) ∧ t = { s with mem := t.mem }) ∧
    (s.mem.size ≤ a → memWrite a v s = .error (.outOfBounds a))

/-- R62: `FetchOne` pairs the cell at the cursor with the cursor plus one, which never exceeds `2^W − 2`, or raises
OutOfBounds at the cursor. (R62 marks the bound as derived.) -/
def Obligations.FetchOneReadsAndAdvances : Prop :=
  ∀ (s : State) (c : Nat), s.mem.size ≤ 2 ^ s.params.width - 2 →
    (∀ v, s.mem.get? c = some v → fetchOne c s = .ok (v, c + 1) ∧ c + 1 ≤ 2 ^ s.params.width - 2) ∧
    (s.mem.get? c = none → fetchOne c s = .error (.outOfBounds c))

/-- R80: `InPop` gives `INPUT[IN_POS]` and increments `IN_POS`, or raises InputExhausted when `IN_POS` has reached the
length of a finite INPUT; an infinite INPUT never runs out. (That an infinite sequence
is written as listed first values and free ones after them, and so gives a listed value where one is listed, is the model's
DESIGN CHOICE, log 5.) -/
def Obligations.InPopTakesTheNextValue : Prop :=
  ∀ s : State,
    (∀ values v, s.input = .finite values → values[s.inPos]? = some v →
      inPop s = .ok (v, { s with inPos := s.inPos + 1 })) ∧
    (∀ values, s.input = .finite values → values.length ≤ s.inPos → inPop s = .error .inputExhausted) ∧
    ∀ first source, s.input = .infinite first source →
      ∃ v, inPop s = .ok (v, { s with inPos := s.inPos + 1 }) ∧ (∀ u, first[s.inPos]? = some u → v = u)

/-- R93: fault entry: STATE Faulted, CAUSE the code of the fault, FINFO its datum, and nothing else is written; then no
step is defined. (The codes are the spec's decision D9 of R87, log 11; that a step asked for there answers the model's
fault `runFaulted` is the model's DESIGN CHOICE, log 7.) -/
def Obligations.FaultEntryWritesStatusAndFinfo : Prop :=
  ∀ (s : State) (x : Exn),
    raise x s = { s with status := { state := .faulted, cause := x.cause }, finfo := x.info } ∧
    step (raise x s) = .fault .runFaulted ∧
    (∀ v, (Exn.malformedProgram v).cause.code = 1 ∧ (Exn.malformedProgram v).info = v) ∧
    (∀ v, (Exn.outOfBounds v).cause.code = 2 ∧ (Exn.outOfBounds v).info = v) ∧
    (Exn.inputExhausted.cause.code = 3 ∧ Exn.inputExhausted.info = 0) ∧
    ∀ v, (Exn.arithOverflow v).cause.code = 5 ∧ (Exn.arithOverflow v).info = v

/-- R20: `STATUS` as the host reads it is 5 bits, STATE in bits 1:0 and CAUSE in bits 4:2, and the values that are
never produced are not the code of anything. (The packing is the spec's decision D19, log 11.) -/
def Obligations.StatusPacksStateAndCause : Prop :=
  ∀ st : Status, st.pack.extractLsb' 0 2 = st.state.code ∧ st.pack.extractLsb' 2 3 = st.cause.code ∧
    st.state.code ≠ 3 ∧ st.cause.code ≠ 6 ∧ st.cause.code ≠ 7

/-! ### Reset (`10_state.md`, `70_reset_and_hazards.md`) -/

/-- R105: reset with IMAGE and INPUT leaves every piece of state at its value. (CAUSE, FINFO, `IN_POS` and the output log
are the spec's decision D13, log 11.) -/
def Obligations.ResetLeavesEveryItemAtItsValue : Prop :=
  ∀ (p : Params) (image : List Nat) (inp : Input),
    (launch p image inp).mem.size = image.length ∧
    (∀ a, (launch p image inp).mem.get? a = image[a]?) ∧ (launch p image inp).pc = 0 ∧
    (launch p image inp).status = { state := .running, cause := .none } ∧ (launch p image inp).finfo = 0 ∧
    (launch p image inp).inPos = 0 ∧ (launch p image inp).outLog = [] ∧ (launch p image inp).params = p ∧
    (launch p image inp).input = inp

/-- After reset the first step runs the instruction that the image begins with, and with an empty image it faults with
OutOfBounds at 0 (R106). -/
def Obligations.FirstStepFetchesAtAddressZero : Prop :=
  (∀ (p : Params) (image rest : List Nat) (inp : Input) (i : Instr), decode p.rom image = .ok (i, rest) →
    step (launch p image inp) = exec i (launch p image inp)) ∧
  ∀ (p : Params) (inp : Input), step (launch p [] inp) =
    .next { launch p [] inp with status := { state := .faulted, cause := .outOfBounds }, finfo := 0 }

/-- The state after reset meets the invariant. (Its launch arguments, the empty image and the empty INPUT, are the
model's choice, log 3.) -/
def Obligations.ResetMeetsTheInvariant : Prop := State.reset.Inv

/-- The state after any launch with admitted arguments meets the invariant (R105, R108). -/
def Obligations.LaunchMeetsTheInvariant : Prop :=
  ∀ (p : Params) (image : List Nat) (inp : Input), launchOk p image inp = true → (launch p image inp).Inv

/-- A table word stored where the next step fetches is what the next step runs, for every state under the default
parameters, Running or not. (The placement is the model's, log 12.) -/
def Obligations.PlacedTableWordRunsNext : Prop :=
  ∀ (s : State) (nbits w : Nat) (i : Instr), s.params = Params.default → decodeTableWord nbits w = some i →
    step (s.withFetchWord nbits w) = exec i (s.withFetchWord nbits w)

/-! ### The invariant -/

/-- Every step keeps the invariant: bounds and canonical form of the memory, `pc` at most `N` or at the sentinel, CAUSE
and FINFO as STATE says, `IN_POS` within INPUT. -/
def Obligations.StepKeepsTheInvariant : Prop :=
  ∀ s t : State, s.Inv → step s = .next t → t.Inv

/-- Everything the host can do to CORE keeps the invariant: reset, a step, a bounded run and a run to the end. -/
def Obligations.HostActionsKeepTheInvariant : Prop :=
  ∀ (act : HostAction) (s t : State), s.Inv → hostAct act s = some t → t.Inv

/-- R18: under the invariant `pc` is the sentinel exactly in Halted, and the sentinel is no valid address. (R18 marks
it as derived.) -/
def Obligations.SentinelExactlyWhenHalted : Prop :=
  ∀ s : State, s.Inv → (s.pc = 2 ^ s.params.width - 1 ↔ s.status.state = .halted) ∧
    s.mem.get? (2 ^ s.params.width - 1) = none

/-- R21, R22: on every run from an admitted launch CAUSE is None and FINFO 0 while Running or Halted, and in Faulted
CAUSE is one of the four codes CORE raises (never None, never LoadError). -/
def Obligations.CauseAndFinfoOnlyAfterAFault : Prop :=
  ∀ (p : Params) (image : List Nat) (inp : Input) (k : Nat), launchOk p image inp = true →
    ((run k (launch p image inp)).status.state ≠ .faulted →
      (run k (launch p image inp)).status.cause = .none ∧ (run k (launch p image inp)).finfo = 0) ∧
    ((run k (launch p image inp)).status.state = .faulted →
      (run k (launch p image inp)).status.cause ≠ .none ∧ (run k (launch p image inp)).status.cause ≠ .loadError)

/-! ### Runs (`40_fetch_decode.md` section 7, `70_reset_and_hazards.md` section 3) -/

/-- Every run ends within `⌈N / 2⌉ + 1` steps, by HALT or by a fault, whatever the memory holds: no assumption on the
state. (R71 marks the bound as derived.) -/
def Obligations.EveryRunEnds : Prop :=
  ∀ s : State, (run ((s.mem.size + 1) / 2 + 1) s).status.state ≠ .running

/-- R112: an ended run is frozen: no step is defined, the host can neither step nor run it, and running it changes
nothing. (R112 marks it as derived; that the model answers a fault there is log 7.) -/
def Obligations.EndedRunIsFrozen : Prop :=
  ∀ s : State, s.status.state ≠ .running →
    (∃ r, step s = .fault r) ∧ (∀ k, run k s = s) ∧ hostAct .step s = none ∧ ∀ b, hostAct (.run b) s = none

/-- On every run `N`, the parameters and INPUT are constant, `IN_POS` never decreases, and what the output log holds
stays where it is (R26, R24, R25, R48). -/
def Obligations.RunsOnlyExtendTheLogs : Prop :=
  ∀ (s : State) (k : Nat), (run k s).mem.size = s.mem.size ∧ (run k s).params = s.params ∧
    (run k s).input = s.input ∧ s.inPos ≤ (run k s).inPos ∧ s.outLog <+: (run k s).outLog

/-- A step takes one input value exactly when it is an IN that reaches its pop, and emits one value exactly when it is an
OUT whose source can be read (R24, R25). -/
def Obligations.OneTransferPerInputOrOutput : Prop :=
  ∀ s t : State, s.status.state = .running → step s = .next t →
    ((∃ d v, fetchInstr s = .ok (.inp d) ∧ s.input.get? s.params.width s.inPos = some v) ∧ t.inPos = s.inPos + 1 ∨
      ¬ (∃ d v, fetchInstr s = .ok (.inp d) ∧ s.input.get? s.params.width s.inPos = some v) ∧ t.inPos = s.inPos) ∧
    ((∃ a v, fetchInstr s = .ok (.out a) ∧ s.mem.get? a = some v ∧ t.outLog = s.outLog ++ [v]) ∨
      ¬ (∃ a v, fetchInstr s = .ok (.out a) ∧ s.mem.get? a = some v) ∧ t.outLog = s.outLog)

/-- A write is seen by the very next fetch: an ADD, MUL or IN that writes the next opcode cell decides what the next
step runs; here the value written selects HALT (R45, R46). -/
def Obligations.NextFetchSeesTheWrite : Prop :=
  ∀ (s : State) (i : Instr) (a b va vb v : Nat), s.status.state = .running → fetchInstr s = .ok i →
    (i = .add a b (s.pc + 4) ∧ s.mem.get? a = some va ∧ s.mem.get? b = some vb ∧ v = va + vb ∧
        v < 2 ^ s.params.width ∧ s.pc + 4 < s.mem.size ∨
      i = .mul a b (s.pc + 4) ∧ s.mem.get? a = some va ∧ s.mem.get? b = some vb ∧ v = va * vb ∧
        v < 2 ^ s.params.width ∧ s.pc + 4 < s.mem.size ∨
      i = .inp (s.pc + 2) ∧ s.input.get? s.params.width s.inPos = some v ∧ s.pc + 2 < s.mem.size) →
    s.params.rom.lookup v = some .halt →
    ∃ t, step s = .next t ∧ t.mem.get? t.pc = some v ∧ fetchInstr t = .ok .halt ∧
      step t = .next { t with pc := 2 ^ s.params.width - 1
                              status := { state := .halted, cause := s.status.cause } }

/-! ### What a program cannot observe, and what the host may -/

/-- A program cannot read the output log: a step from the same state with another log does the same and appends the
same (R25). -/
def Obligations.ProgramCannotReadTheOutputLog : Prop :=
  ∀ (s t : State) (log : List Nat), step s = .next t →
    ∃ new, t.outLog = s.outLog ++ new ∧ step { s with outLog := log } = .next { t with outLog := log ++ new }

/-- A program cannot read CAUSE or FINFO: a step from the same Running state with other values in them leaves the same
everywhere else, and they stay as they are unless a fault is taken, which writes both (R19 to R22). -/
def Obligations.ProgramCannotReadCauseOrFinfo : Prop :=
  ∀ (s t : State) (c : Cause) (f : Nat), step s = .next t →
    step { s with status := { state := s.status.state, cause := c }, finfo := f } =
      .next (if t.status.state = .faulted then t
             else { t with status := { state := t.status.state, cause := c }, finfo := f })

/-- The host reads memory only after the run, and then every cell of it, and only then has the run a result; status and
output it reads at any time (R29, R111). -/
def Obligations.HostReadsMemoryOnlyAfterTheRun : Prop :=
  ∀ (s : State) (a : Nat),
    (s.status.state = .running → hostReadMem s a = none ∧ runResult s = none) ∧
    (s.status.state ≠ .running → hostReadMem s a = s.mem.get? a ∧
      runResult s = some (s.mem, s.outLog, s.status)) ∧
    hostReadStatus s = (s.pc, s.status.pack, s.finfo) ∧ hostReadOutput s = s.outLog

/-! ### The six items (`10_state.md` section 1) -/

/-- R15: the machine's own state is the six items alone. A step of the pair that the host's interface holds is a step
over the six items under the run's configuration, which it leaves as it is. (That the configuration stands beside them is
the model's DESIGN CHOICE, log 1.) -/
def Obligations.StepIsAMachineOverTheSixItems : Prop :=
  ∀ s : State, step s = withConfig s.toRunConfig (archStep s.toRunConfig s.toArchState)
end

