-- ==== Sys2Proof/Laws/Table.lean ====
section
/-! SUPPORT. The laws of tables: what `insert` and `erase` leave to `lookup`, that both keep the canonical form, and
that canonical tables with equal lookups are equal. -/

namespace Sys2Proof.Table

variable {α : Type}

@[simp] theorem lookup_nil (k : Nat) : lookup k ([] : List (Nat × α)) = none := rfl

theorem lookup_cons (k k' : Nat) (v : α) (t : List (Nat × α)) :
    lookup k ((k', v) :: t) = if k = k' then some v else lookup k t := rfl

/-- What a lookup finds after an insertion. -/
theorem lookup_insert (k j : Nat) (v : α) (t : List (Nat × α)) :
    lookup j (insert k v t) = if j = k then some v else lookup j t := by
  induction t with
  | nil => simp [insert, lookup]
  | cons e t ih =>
    obtain ⟨k', v'⟩ := e
    by_cases hlt : k < k'
    · simp [insert, hlt, lookup_cons]
    · by_cases heq : k = k'
      · subst heq; by_cases hj : j = k <;> simp [insert, lookup_cons, hj]
      · simp only [insert, hlt, heq, if_false, lookup_cons, ih]
        by_cases hj : j = k' <;> by_cases hjk : j = k <;> simp_all

/-- What a lookup finds after an erasure. -/
theorem lookup_erase (k j : Nat) (t : List (Nat × α)) :
    lookup j (erase k t) = if j = k then none else lookup j t := by
  induction t with
  | nil => simp [erase, lookup]
  | cons e t ih =>
    obtain ⟨k', v'⟩ := e
    by_cases heq : k = k'
    · subst heq
      have he : erase k ((k, v') :: t) = erase k t := by simp [erase]
      rw [he, ih, lookup_cons]
      by_cases hj : j = k <;> simp [hj]
    · simp only [erase, heq, if_false, lookup_cons, ih]
      by_cases hj : j = k' <;> by_cases hjk : j = k <;> simp_all

theorem risesFrom_mono {lo lo' : Nat} {t : List (Nat × α)} (h : risesFrom lo t = true) (hle : lo' ≤ lo) :
    risesFrom lo' t = true := by
  cases t with
  | nil => rfl
  | cons e t => simp only [risesFrom, Bool.and_eq_true, decide_eq_true_eq] at h ⊢; exact ⟨by omega, h.2⟩

theorem risesFrom_insert {lo k : Nat} {v : α} {t : List (Nat × α)} (h : risesFrom lo t = true) (hk : lo ≤ k) :
    risesFrom lo (insert k v t) = true := by
  induction t generalizing lo with
  | nil => simpa [insert, risesFrom] using hk
  | cons e t ih =>
    obtain ⟨k', v'⟩ := e
    simp only [risesFrom, Bool.and_eq_true, decide_eq_true_eq] at h
    by_cases hlt : k < k'
    · simp only [insert, hlt, if_true, risesFrom, Bool.and_eq_true, decide_eq_true_eq]
      exact ⟨hk, by omega, h.2⟩
    · by_cases heq : k = k'
      · subst heq; simp only [insert, lt_irrefl, if_false, if_true, risesFrom, Bool.and_eq_true, decide_eq_true_eq]
        exact h
      · simp only [insert, hlt, heq, if_false, risesFrom, Bool.and_eq_true, decide_eq_true_eq]
        exact ⟨h.1, ih h.2 (by omega)⟩

theorem risesFrom_erase {lo k : Nat} {t : List (Nat × α)} (h : risesFrom lo t = true) :
    risesFrom lo (erase k t) = true := by
  induction t generalizing lo with
  | nil => rfl
  | cons e t ih =>
    obtain ⟨k', v'⟩ := e
    simp only [risesFrom, Bool.and_eq_true, decide_eq_true_eq] at h
    by_cases heq : k = k'
    · subst heq
      simp only [erase, if_true]
      exact risesFrom_mono (ih h.2) (by omega)
    · simp only [erase, heq, if_false, risesFrom, Bool.and_eq_true, decide_eq_true_eq]; exact ⟨h.1, ih h.2⟩

/-- An insertion keeps the canonical form. -/
theorem sorted_insert {k : Nat} {v : α} {t : List (Nat × α)} (h : sorted t = true) : sorted (insert k v t) = true :=
  risesFrom_insert h (Nat.zero_le k)

/-- An erasure keeps the canonical form. -/
theorem sorted_erase {k : Nat} {t : List (Nat × α)} (h : sorted t = true) : sorted (erase k t) = true :=
  risesFrom_erase h

/-- An insertion lists the new entry and entries that stood before. -/
theorem mem_insert {k : Nat} {v : α} {t : List (Nat × α)} {e : Nat × α} (h : e ∈ insert k v t) :
    e = (k, v) ∨ e ∈ t := by
  induction t with
  | nil => simpa [insert] using h
  | cons e' t ih =>
    obtain ⟨k', v'⟩ := e'
    by_cases hlt : k < k'
    · simpa [insert, hlt] using h
    · by_cases heq : k = k'
      · subst heq
        simp only [insert, lt_irrefl, if_false, if_true, List.mem_cons] at h ⊢
        tauto
      · simp only [insert, hlt, heq, if_false, List.mem_cons] at h ⊢; tauto

/-- An erasure lists only entries that stood before. -/
theorem mem_erase {k : Nat} {t : List (Nat × α)} {e : Nat × α} (h : e ∈ erase k t) : e ∈ t := by
  induction t with
  | nil => simp [erase] at h
  | cons e' t ih =>
    obtain ⟨k', v'⟩ := e'
    by_cases heq : k = k'
    · simp only [erase, heq, if_true, List.mem_cons] at h ⊢; exact Or.inr (by simpa [heq] using ih (by simpa [heq] using h))
    · simp only [erase, heq, if_false, List.mem_cons] at h ⊢; tauto

/-- A lookup finds only what the table lists. -/
theorem mem_of_lookup {k : Nat} {v : α} {t : List (Nat × α)} (h : lookup k t = some v) : (k, v) ∈ t := by
  induction t with
  | nil => simp at h
  | cons e t ih =>
    obtain ⟨k', v'⟩ := e
    rw [lookup_cons] at h
    by_cases hk : k = k'
    · simp_all
    · exact List.mem_cons_of_mem _ (ih (by simpa [hk] using h))

/-- Below the first key nothing is found. -/
theorem lookup_below {lo k : Nat} {t : List (Nat × α)} (h : risesFrom lo t = true) (hk : k < lo) :
    lookup k t = none := by
  induction t generalizing lo with
  | nil => rfl
  | cons e t ih =>
    obtain ⟨k', v'⟩ := e
    simp only [risesFrom, Bool.and_eq_true, decide_eq_true_eq] at h
    rw [lookup_cons, if_neg (by omega)]
    exact ih h.2 (by omega)

/-- In a canonical table every listed entry is found. -/
theorem lookup_of_mem {lo k : Nat} {v : α} {t : List (Nat × α)} (h : risesFrom lo t = true) (hm : (k, v) ∈ t) :
    lookup k t = some v := by
  induction t generalizing lo with
  | nil => simp at hm
  | cons e t ih =>
    obtain ⟨k', v'⟩ := e
    simp only [risesFrom, Bool.and_eq_true, decide_eq_true_eq] at h
    rcases List.mem_cons.mp hm with heq | hm'
    · simp only [Prod.mk.injEq] at heq; simp [lookup_cons, heq]
    · have := ih h.2 hm'
      have hne : k ≠ k' := fun hk => by
        rw [lookup_below h.2 (by omega)] at this; exact absurd this (by simp)
      rw [lookup_cons, if_neg hne, this]

/-- Canonical tables with equal lookups are equal. -/
theorem ext_lookup {lo : Nat} {t u : List (Nat × α)} (ht : risesFrom lo t = true) (hu : risesFrom lo u = true)
    (h : ∀ k, lookup k t = lookup k u) : t = u := by
  induction t generalizing lo u with
  | nil =>
    cases u with
    | nil => rfl
    | cons e u => have := h e.1; rw [lookup_cons] at this; simp at this
  | cons e t ih =>
    obtain ⟨k, v⟩ := e
    cases u with
    | nil => have := h k; rw [lookup_cons] at this; simp at this
    | cons e' u =>
      obtain ⟨k', v'⟩ := e'
      simp only [risesFrom, Bool.and_eq_true, decide_eq_true_eq] at ht hu
      have hk : k = k' := by
        rcases Nat.lt_trichotomy k k' with hlt | heq | hgt
        · have := h k
          rw [lookup_cons, if_pos rfl, lookup_cons, if_neg (by omega), lookup_below hu.2 (by omega)] at this
          exact absurd this (by simp)
        · exact heq
        · have := h k'
          rw [lookup_cons, if_neg (by omega), lookup_below ht.2 (by omega), lookup_cons, if_pos rfl] at this
          exact absurd this (by simp)
      subst hk
      have hv := h k
      simp only [lookup_cons, if_true, Option.some.injEq] at hv
      subst hv
      congr 1
      refine ih ht.2 hu.2 fun j => ?_
      by_cases hj : j = k
      · subst hj; rw [lookup_below ht.2 (by omega), lookup_below hu.2 (by omega)]
      · have := h j; rwa [lookup_cons, lookup_cons, if_neg hj, if_neg hj] at this

end Sys2Proof.Table
end

