-- ==== Sys2Proof/Laws/Decode.lean ====
section
/-! SUPPORT. The laws of the ROM and of the decoder: everything `decodeFrom` can answer, and when. -/

namespace Sys2Proof

/-! ### The ROM -/

@[simp] theorem Rom.lookup_nil (op : Nat) : Rom.lookup [] op = none := rfl

/-- One more pair at the end of the list wins for its own opcode and leaves the others (R55). -/
theorem Rom.build_append (pairs : List (Nat × Handler)) (k : Nat) (h : Handler) :
    Rom.build (pairs ++ [(k, h)]) = Table.insert k h (Rom.build pairs) := by
  simp [Rom.build, List.foldl_append]

theorem Rom.lookup_build_append (pairs : List (Nat × Handler)) (k : Nat) (h : Handler) (op : Nat) :
    (Rom.build (pairs ++ [(k, h)])).lookup op = if op = k then some h else (Rom.build pairs).lookup op := by
  rw [Rom.build_append]; exact Table.lookup_insert k op h _

/-- A ROM that was built is in canonical form. -/
theorem Rom.sorted_build (pairs : List (Nat × Handler)) : Table.sorted (Rom.build pairs) = true := by
  induction pairs using List.reverseRecOn with
  | nil => rfl
  | append_singleton l p ih => obtain ⟨k, h⟩ := p; rw [Rom.build_append]; exact Table.sorted_insert ih

/-- The opcode the encoder picks is one the ROM maps to the handler. -/
theorem Rom.mem_of_opcodeOf {rom : Rom} {h : Handler} {op : Nat} (ho : rom.opcodeOf h = some op) :
    (op, h) ∈ rom := by
  induction rom with
  | nil => simp [Rom.opcodeOf] at ho
  | cons e t ih =>
    obtain ⟨k, h'⟩ := e
    by_cases hh : h' = h
    · simp_all [Rom.opcodeOf]
    · exact List.mem_cons_of_mem _ (ih (by simpa [Rom.opcodeOf, hh] using ho))

theorem Rom.lookup_of_opcodeOf {rom : Rom} (hs : Table.sorted rom = true) {h : Handler} {op : Nat}
    (ho : rom.opcodeOf h = some op) : rom.lookup op = some h :=
  Table.lookup_of_mem hs (Rom.mem_of_opcodeOf ho)

/-! ### The decoder -/

variable {ε : Type} {rom : Rom} {read : Nat → Except ε Nat} {unknown : Nat → ε}

/-- Decoding succeeds when the opcode cell and every operand cell can be read and the ROM knows the opcode. -/
theorem decodeFrom_of_reads {i : Instr} {op : Nat} (h0 : read 0 = .ok op) (hl : rom.lookup op = some i.handler)
    (hr : ∀ k v, i.operands[k]? = some v → read (k + 1) = .ok v) : decodeFrom rom read unknown = .ok i := by
  cases i with
  | add a b d =>
    have h1 := hr 0 a rfl; have h2 := hr 1 b rfl; have h3 := hr 2 d rfl
    simp only [Instr.handler] at hl
    simp_all [decodeFrom, bind, Except.bind, pure, Except.pure]
  | mul a b d =>
    have h1 := hr 0 a rfl; have h2 := hr 1 b rfl; have h3 := hr 2 d rfl
    simp only [Instr.handler] at hl
    simp_all [decodeFrom, bind, Except.bind, pure, Except.pure]
  | inp d =>
    have h1 := hr 0 d rfl
    simp only [Instr.handler] at hl
    simp_all [decodeFrom, bind, Except.bind, pure, Except.pure]
  | out d =>
    have h1 := hr 0 d rfl
    simp only [Instr.handler] at hl
    simp_all [decodeFrom, bind, Except.bind, pure, Except.pure]
  | halt =>
    simp only [Instr.handler] at hl
    simp_all [decodeFrom, bind, Except.bind, pure, Except.pure]

/-- Everything decoding can answer: the instruction whose cells were read, the error of the first cell that could not
be read, or the unknown opcode. -/
theorem decodeFrom_cases (rom : Rom) (read : Nat → Except ε Nat) (unknown : Nat → ε) :
    (∃ e, read 0 = .error e ∧ decodeFrom rom read unknown = .error e) ∨
    ∃ op, read 0 = .ok op ∧
      ((rom.lookup op = none ∧ decodeFrom rom read unknown = .error (unknown op)) ∨
      (∃ i : Instr, rom.lookup op = some i.handler ∧
        (∀ k v, i.operands[k]? = some v → read (k + 1) = .ok v) ∧ decodeFrom rom read unknown = .ok i) ∨
      ∃ h k e, rom.lookup op = some h ∧ k + 1 < h.length ∧ (∀ j, j < k → ∃ v, read (j + 1) = .ok v) ∧
        read (k + 1) = .error e ∧ decodeFrom rom read unknown = .error e) := by
  cases h0 : read 0 with
  | error e => exact .inl ⟨e, rfl, by simp [decodeFrom, h0, bind, Except.bind]⟩
  | ok op =>
    refine .inr ⟨op, rfl, ?_⟩
    cases hl : rom.lookup op with
    | none => exact .inl ⟨rfl, by simp [decodeFrom, h0, hl, bind, Except.bind]⟩
    | some h =>
      refine .inr ?_
      have three : ∀ mk : Nat → Nat → Nat → Instr, (∀ a b d, (mk a b d).handler = h) → h.length = 4 →
          (∀ a b d, (mk a b d).operands = [a, b, d]) →
          decodeFrom rom read unknown = (do
            let a ← read 1
            let b ← read 2
            let d ← read 3
            return mk a b d) →
          (∃ i : Instr, some h = some i.handler ∧ (∀ k v, i.operands[k]? = some v → read (k + 1) = .ok v) ∧
            decodeFrom rom read unknown = .ok i) ∨
          ∃ h' k e, some h = some h' ∧ k + 1 < h'.length ∧ (∀ j, j < k → ∃ v, read (j + 1) = .ok v) ∧
            read (k + 1) = .error e ∧ decodeFrom rom read unknown = .error e := by
        intro mk hh hlen hops hdec
        cases h1 : read 1 with
        | error e =>
          exact .inr ⟨h, 0, e, rfl, by omega, by omega, h1, by simp [hdec, h1, bind, Except.bind]⟩
        | ok a =>
          cases h2 : read 2 with
          | error e =>
            refine .inr ⟨h, 1, e, rfl, by omega, fun j hj => ⟨a, ?_⟩, h2, by simp [hdec, h1, h2, bind, Except.bind]⟩
            obtain rfl : j = 0 := by omega
            exact h1
          | ok b =>
            cases h3 : read 3 with
            | error e =>
              refine .inr ⟨h, 2, e, rfl, by omega, fun j hj => ?_, h3,
                by simp [hdec, h1, h2, h3, bind, Except.bind]⟩
              obtain rfl | rfl : j = 0 ∨ j = 1 := by omega
              · exact ⟨a, h1⟩
              · exact ⟨b, h2⟩
            | ok d =>
              refine .inl ⟨mk a b d, by rw [hh], fun k v hv => ?_,
                by simp [hdec, h1, h2, h3, bind, Except.bind, pure, Except.pure]⟩
              rw [hops] at hv
              match k, hv with
              | 0, hv => simpa [h1] using hv
              | 1, hv => simpa [h2] using hv
              | 2, hv => simpa [h3] using hv
              | k + 3, hv => simp at hv
      have one : ∀ mk : Nat → Instr, (∀ d, (mk d).handler = h) → h.length = 2 →
          (∀ d, (mk d).operands = [d]) →
          decodeFrom rom read unknown = (do
            let d ← read 1
            return mk d) →
          (∃ i : Instr, some h = some i.handler ∧ (∀ k v, i.operands[k]? = some v → read (k + 1) = .ok v) ∧
            decodeFrom rom read unknown = .ok i) ∨
          ∃ h' k e, some h = some h' ∧ k + 1 < h'.length ∧ (∀ j, j < k → ∃ v, read (j + 1) = .ok v) ∧
            read (k + 1) = .error e ∧ decodeFrom rom read unknown = .error e := by
        intro mk hh hlen hops hdec
        cases h1 : read 1 with
        | error e =>
          exact .inr ⟨h, 0, e, rfl, by omega, by omega, h1, by simp [hdec, h1, bind, Except.bind]⟩
        | ok d =>
          refine .inl ⟨mk d, by rw [hh], fun k v hv => ?_,
            by simp [hdec, h1, bind, Except.bind, pure, Except.pure]⟩
          rw [hops] at hv
          match k, hv with
          | 0, hv => simpa [h1] using hv
          | k + 1, hv => simp at hv
      cases h with
      | add =>
        exact three .add (fun _ _ _ => rfl) rfl (fun _ _ _ => rfl)
          (by simp [decodeFrom, h0, hl, bind, Except.bind])
      | mul =>
        exact three .mul (fun _ _ _ => rfl) rfl (fun _ _ _ => rfl)
          (by simp [decodeFrom, h0, hl, bind, Except.bind])
      | inp =>
        exact one .inp (fun _ => rfl) rfl (fun _ => rfl)
          (by simp [decodeFrom, h0, hl, bind, Except.bind])
      | out =>
        exact one .out (fun _ => rfl) rfl (fun _ => rfl)
          (by simp [decodeFrom, h0, hl, bind, Except.bind])
      | halt =>
        exact .inl ⟨.halt, rfl, fun k v hv => by simp [Instr.operands] at hv,
          by simp [decodeFrom, h0, hl, bind, Except.bind, pure, Except.pure]⟩

/-- Decoding gives an instruction exactly when its cells can be read and the ROM names its handler. -/
theorem decodeFrom_ok {i : Instr} : decodeFrom rom read unknown = .ok i ↔
    ∃ op, read 0 = .ok op ∧ rom.lookup op = some i.handler ∧
      ∀ k v, i.operands[k]? = some v → read (k + 1) = .ok v := by
  constructor
  · intro h
    obtain ⟨e, -, hd⟩ | ⟨op, h0, ⟨-, hd⟩ | ⟨j, hl, hr, hd⟩ | ⟨h', k, e, -, -, -, -, hd⟩⟩ :=
      decodeFrom_cases rom read unknown
    · rw [h] at hd; cases hd
    · rw [h] at hd; cases hd
    · rw [h] at hd; cases hd; exact ⟨op, h0, hl, hr⟩
    · rw [h] at hd; cases hd
  · rintro ⟨op, h0, hl, hr⟩; exact decodeFrom_of_reads h0 hl hr

theorem readCell_ok {cells : List Nat} {k : Nat} {v : Nat} : readCell cells k = .ok v ↔ cells[k]? = some v := by
  unfold readCell; cases cells[k]? <;> simp

/-- A handler's length is the opcode cell and the operand cells of its instructions (R53). -/
theorem Instr.length_eq (i : Instr) : i.handler.length = i.operands.length + 1 := by cases i <;> rfl

end Sys2Proof
end

