-- ==== Sys2Proof/Laws/State.lean ====
section
/-! SUPPORT. One lemma per field and update: what each named operation does to each field of State. (The two
primitives that answer a state inside a result, `memWrite` and `inPop`, have theirs in `Laws/Ops.lean`.) -/

namespace Sys2Proof.Machine

@[simp] theorem raise_params (x : Exn) (s : State) : (raise x s).params = s.params := rfl
@[simp] theorem raise_input (x : Exn) (s : State) : (raise x s).input = s.input := rfl
@[simp] theorem raise_pc (x : Exn) (s : State) : (raise x s).pc = s.pc := rfl
@[simp] theorem raise_status (x : Exn) (s : State) : (raise x s).status = { state := .faulted, cause := x.cause } := rfl
@[simp] theorem raise_finfo (x : Exn) (s : State) : (raise x s).finfo = x.info := rfl
@[simp] theorem raise_mem (x : Exn) (s : State) : (raise x s).mem = s.mem := rfl
@[simp] theorem raise_inPos (x : Exn) (s : State) : (raise x s).inPos = s.inPos := rfl
@[simp] theorem raise_outLog (x : Exn) (s : State) : (raise x s).outLog = s.outLog := rfl

@[simp] theorem continueAt_params (c : Nat) (s : State) : (continueAt c s).params = s.params := rfl
@[simp] theorem continueAt_input (c : Nat) (s : State) : (continueAt c s).input = s.input := rfl
@[simp] theorem continueAt_pc (c : Nat) (s : State) : (continueAt c s).pc = c := rfl
@[simp] theorem continueAt_status (c : Nat) (s : State) : (continueAt c s).status = s.status := rfl
@[simp] theorem continueAt_finfo (c : Nat) (s : State) : (continueAt c s).finfo = s.finfo := rfl
@[simp] theorem continueAt_mem (c : Nat) (s : State) : (continueAt c s).mem = s.mem := rfl
@[simp] theorem continueAt_inPos (c : Nat) (s : State) : (continueAt c s).inPos = s.inPos := rfl
@[simp] theorem continueAt_outLog (c : Nat) (s : State) : (continueAt c s).outLog = s.outLog := rfl

@[simp] theorem haltRun_params (s : State) : (haltRun s).params = s.params := rfl
@[simp] theorem haltRun_input (s : State) : (haltRun s).input = s.input := rfl
@[simp] theorem haltRun_pc (s : State) : (haltRun s).pc = s.params.haltPc := rfl
@[simp] theorem haltRun_status (s : State) : (haltRun s).status = { s.status with state := .halted } := rfl
@[simp] theorem haltRun_finfo (s : State) : (haltRun s).finfo = s.finfo := rfl
@[simp] theorem haltRun_mem (s : State) : (haltRun s).mem = s.mem := rfl
@[simp] theorem haltRun_inPos (s : State) : (haltRun s).inPos = s.inPos := rfl
@[simp] theorem haltRun_outLog (s : State) : (haltRun s).outLog = s.outLog := rfl

@[simp] theorem outPush_params (v : Nat) (s : State) : (outPush v s).params = s.params := rfl
@[simp] theorem outPush_input (v : Nat) (s : State) : (outPush v s).input = s.input := rfl
@[simp] theorem outPush_pc (v : Nat) (s : State) : (outPush v s).pc = s.pc := rfl
@[simp] theorem outPush_status (v : Nat) (s : State) : (outPush v s).status = s.status := rfl
@[simp] theorem outPush_finfo (v : Nat) (s : State) : (outPush v s).finfo = s.finfo := rfl
@[simp] theorem outPush_mem (v : Nat) (s : State) : (outPush v s).mem = s.mem := rfl
@[simp] theorem outPush_inPos (v : Nat) (s : State) : (outPush v s).inPos = s.inPos := rfl
@[simp] theorem outPush_outLog (v : Nat) (s : State) : (outPush v s).outLog = s.outLog ++ [v] := rfl

@[simp] theorem launch_params (p : Params) (image : List Nat) (inp : Input) : (launch p image inp).params = p := rfl
@[simp] theorem launch_input (p : Params) (image : List Nat) (inp : Input) : (launch p image inp).input = inp := rfl
@[simp] theorem launch_pc (p : Params) (image : List Nat) (inp : Input) : (launch p image inp).pc = 0 := rfl
@[simp] theorem launch_status (p : Params) (image : List Nat) (inp : Input) : (launch p image inp).status = { state := .running, cause := .none } := rfl
@[simp] theorem launch_finfo (p : Params) (image : List Nat) (inp : Input) : (launch p image inp).finfo = 0 := rfl
@[simp] theorem launch_mem (p : Params) (image : List Nat) (inp : Input) : (launch p image inp).mem = Memory.ofImage image := rfl
@[simp] theorem launch_inPos (p : Params) (image : List Nat) (inp : Input) : (launch p image inp).inPos = 0 := rfl
@[simp] theorem launch_outLog (p : Params) (image : List Nat) (inp : Input) : (launch p image inp).outLog = [] := rfl

end Sys2Proof.Machine
end

