-- ==== Sys2Proof/Laws/Ops.lean ====
section
/-! SUPPORT. The laws of the named operations: reads after writes, the canonical form of the memory, and for each
primitive everything it can answer. -/

namespace Sys2Proof.Machine

/-! ### Memory -/

theorem Memory.get?_lt {m : Memory} {a : Nat} {v : Nat} (h : m.get? a = some v) : a < m.size := by
  by_contra hn; simp [Memory.get?, hn] at h

theorem Memory.get?_eq_none {m : Memory} {a : Nat} : m.get? a = none ↔ m.size ≤ a := by
  simp [Memory.get?]

theorem Memory.get?_isSome {m : Memory} {a : Nat} (h : a < m.size) : ∃ v, m.get? a = some v := by
  simp [Memory.get?, h]

@[simp] theorem Memory.set_size (m : Memory) (a : Nat) (v : Nat) : (m.set a v).size = m.size := rfl

/-- A read after a write: the value written at the address written, the old value at every other (R35). -/
theorem Memory.get?_set {m : Memory} {a : Nat} (h : a < m.size) (v : Nat) (b : Nat) :
    (m.set a v).get? b = if b = a then some v else m.get? b := by
  by_cases hb : b = a
  · subst hb
    by_cases hv : v = unlistedCell <;>
      simp [Memory.get?, Memory.set, h, hv, Table.lookup_insert, Table.lookup_erase]
  · by_cases hv : v = unlistedCell <;>
      simp [Memory.get?, Memory.set, hb, hv, Table.lookup_insert, Table.lookup_erase]

theorem Memory.wf_iff {W : Nat} {m : Memory} : m.wf W = true ↔
    m.size ≤ 2 ^ W - 2 ∧ Table.sorted m.cells = true ∧
      ∀ e ∈ m.cells, e.1 < m.size ∧ e.2 < 2 ^ W ∧ e.2 ≠ unlistedCell := by
  simp only [Memory.wf, Bool.and_eq_true, decide_eq_true_eq, List.all_eq_true, Bool.not_eq_true',
    decide_eq_false_iff_not, and_assoc, ne_eq]

/-- In a well-formed memory every cell is below `2^W` (R8). -/
theorem Memory.get?_bound {W : Nat} {m : Memory} (hm : m.wf W = true) {a : Nat} {v : Nat}
    (h : m.get? a = some v) : v < 2 ^ W := by
  have hlt := Memory.get?_lt h
  simp only [Memory.get?, hlt, if_true, Option.some.injEq] at h
  cases hl : Table.lookup a m.cells with
  | none => rw [hl] at h; subst h; exact Nat.two_pow_pos W
  | some u =>
    rw [hl] at h; subst h
    exact ((Memory.wf_iff.mp hm).2.2 _ (Table.mem_of_lookup hl)).2.1

/-- A write keeps the canonical form. -/
theorem Memory.wf_set {W : Nat} {m : Memory} (hm : m.wf W = true) {a : Nat} {v : Nat} (ha : a < m.size)
    (hv : v < 2 ^ W) : (m.set a v).wf W = true := by
  obtain ⟨hN, hs, he⟩ := Memory.wf_iff.mp hm
  refine Memory.wf_iff.mpr ⟨hN, ?_, ?_⟩
  · unfold Memory.set; split
    · exact Table.sorted_erase hs
    · exact Table.sorted_insert hs
  · intro e hmem
    unfold Memory.set at hmem; split at hmem
    · exact he e (Table.mem_erase hmem)
    · rcases Table.mem_insert hmem with rfl | h'
      · exact ⟨ha, hv, by assumption⟩
      · exact he e h'

/-- Equal memories are equal data: two well-formed memories that read the same are the same. -/
theorem Memory.ext_get? {W : Nat} {m m' : Memory} (hm : m.wf W = true) (hm' : m'.wf W = true)
    (h : ∀ a, m.get? a = m'.get? a) : m = m' := by
  obtain ⟨-, hs, he⟩ := Memory.wf_iff.mp hm
  obtain ⟨-, hs', he'⟩ := Memory.wf_iff.mp hm'
  have hsize : m.size = m'.size := by
    have h1 := (Memory.get?_eq_none (m := m) (a := m'.size)).mp (by rw [h]; exact Memory.get?_eq_none.mpr le_rfl)
    have h2 := (Memory.get?_eq_none (m := m') (a := m.size)).mp (by rw [← h]; exact Memory.get?_eq_none.mpr le_rfl)
    omega
  have hcells : m.cells = m'.cells := by
    refine Table.ext_lookup hs hs' fun a => ?_
    by_cases ha : a < m.size
    · have hg := h a
      simp only [Memory.get?, ha, hsize ▸ ha, if_true, Option.some.injEq] at hg
      cases hl : Table.lookup a m.cells with
      | none =>
        cases hl' : Table.lookup a m'.cells with
        | none => rfl
        | some u' => rw [hl, hl'] at hg; exact absurd hg.symm (he' _ (Table.mem_of_lookup hl')).2.2
      | some u =>
        cases hl' : Table.lookup a m'.cells with
        | none => rw [hl, hl'] at hg; exact absurd hg (he _ (Table.mem_of_lookup hl)).2.2
        | some u' => rw [hl, hl'] at hg; simpa using hg
    · have hn : Table.lookup a m.cells = none := by
        cases hl : Table.lookup a m.cells with
        | none => rfl
        | some u => exact absurd (he _ (Table.mem_of_lookup hl)).1 ha
      have hn' : Table.lookup a m'.cells = none := by
        cases hl : Table.lookup a m'.cells with
        | none => rfl
        | some u => exact absurd (he' _ (Table.mem_of_lookup hl)).1 (hsize ▸ ha)
      rw [hn, hn']
  cases m; cases m'; simp_all

theorem cellsFrom_rises (a : Nat) (l : List Nat) : Table.risesFrom a (cellsFrom a l) = true := by
  induction l generalizing a with
  | nil => rfl
  | cons v t ih =>
    by_cases hv : v = unlistedCell
    · simpa [cellsFrom, hv] using Table.risesFrom_mono (ih (a + 1)) (Nat.le_succ a)
    · simpa [cellsFrom, hv, Table.risesFrom] using ih (a + 1)

theorem mem_cellsFrom {a : Nat} {l : List Nat} {e : Nat × Nat} (h : e ∈ cellsFrom a l) :
    e.1 < a + l.length ∧ e.2 ∈ l ∧ e.2 ≠ unlistedCell := by
  induction l generalizing a with
  | nil => simp [cellsFrom] at h
  | cons v t ih =>
    by_cases hv : v = unlistedCell
    · obtain ⟨h1, h2, h3⟩ := ih (by simpa [cellsFrom, hv] using h)
      exact ⟨by simp; omega, List.mem_cons_of_mem _ h2, h3⟩
    · rcases List.mem_cons.mp (by simpa [cellsFrom, hv] using h) with rfl | h'
      · exact ⟨by simp, by simp, hv⟩
      · obtain ⟨h1, h2, h3⟩ := ih h'
        exact ⟨by simp; omega, List.mem_cons_of_mem _ h2, h3⟩

theorem lookup_cellsFrom (a k : Nat) (l : List Nat) :
    (Table.lookup (a + k) (cellsFrom a l)).getD unlistedCell = (l[k]?).getD unlistedCell := by
  induction l generalizing a k with
  | nil => simp [cellsFrom]
  | cons v t ih =>
    cases k with
    | zero =>
      by_cases hv : v = unlistedCell
      · simp only [cellsFrom, hv, if_true, Nat.add_zero,
          Table.lookup_below (cellsFrom_rises (a + 1) t) (Nat.lt_succ_self a)]; rfl
      · simp [cellsFrom, hv, Table.lookup_cons]
    | succ k =>
      have hk : a + (k + 1) = a + 1 + k := by omega
      by_cases hv : v = unlistedCell
      · simp only [cellsFrom, hv, if_true]; rw [hk, ih (a + 1) k]; rfl
      · simp only [cellsFrom, hv, if_false, Table.lookup_cons, show a + (k + 1) ≠ a by omega]
        rw [hk, ih (a + 1) k]; rfl

@[simp] theorem Memory.ofImage_size (image : List Nat) : (Memory.ofImage image).size = image.length := rfl

/-- The memory loaded from an image reads as the image (R105). -/
theorem Memory.ofImage_get? (image : List Nat) (a : Nat) : (Memory.ofImage image).get? a = image[a]? := by
  by_cases ha : a < image.length
  · have := lookup_cellsFrom 0 a image
    simp only [Nat.zero_add] at this
    simp [Memory.get?, Memory.ofImage, ha, this]
  · simp [Memory.get?, Memory.ofImage, ha]

/-- The memory loaded from an admitted image is well formed (R108). -/
theorem Memory.ofImage_wf {W : Nat} {image : List Nat} (hN : image.length ≤ 2 ^ W - 2)
    (hv : ∀ v ∈ image, v < 2 ^ W) : (Memory.ofImage image).wf W = true := by
  refine Memory.wf_iff.mpr ⟨hN, cellsFrom_rises 0 image, fun e he => ?_⟩
  obtain ⟨h1, h2, h3⟩ := mem_cellsFrom he
  exact ⟨by simpa using h1, hv _ h2, h3⟩

/-! ### The primitives -/

@[simp] theorem orRaise_ok {α : Type} (s : State) (v : α) (k : α → Outcome) : orRaise s (.ok v) k = k v := rfl
@[simp] theorem orRaise_error {α : Type} (s : State) (x : Exn) (k : α → Outcome) :
    orRaise s (.error x) k = .next (raise x s) := rfl

/-- Everything `orRaise` can answer: the continuation's answer, or the fault taken. -/
theorem orRaise_cases {α : Type} (s : State) (r : Except Exn α) (k : α → Outcome) :
    (∃ v, r = .ok v ∧ orRaise s r k = k v) ∨ ∃ x, r = .error x ∧ orRaise s r k = .next (raise x s) := by
  cases r with
  | ok v => exact .inl ⟨v, rfl, rfl⟩
  | error x => exact .inr ⟨x, rfl, rfl⟩

theorem memRead_some {a : Nat} {s : State} {v : Nat} (h : s.mem.get? a = some v) : memRead a s = .ok v := by
  simp [memRead, h]
theorem memRead_none {a : Nat} {s : State} (h : s.mem.get? a = none) : memRead a s = .error (.outOfBounds a) := by
  simp [memRead, h]
theorem memRead_ok {a : Nat} {s : State} {v : Nat} : memRead a s = .ok v ↔ s.mem.get? a = some v := by
  unfold memRead; cases s.mem.get? a <;> simp
theorem memRead_error {a : Nat} {s : State} {x : Exn} :
    memRead a s = .error x ↔ s.mem.get? a = none ∧ x = .outOfBounds a := by
  unfold memRead; cases s.mem.get? a <;> simp [eq_comm]

theorem memWrite_in {a v : Nat} {s : State} (h : a < s.mem.size) :
    memWrite a v s = .ok { s with mem := s.mem.set a v } := by simp [memWrite, h]
theorem memWrite_out {a v : Nat} {s : State} (h : s.mem.size ≤ a) :
    memWrite a v s = .error (.outOfBounds a) := by simp [memWrite, Nat.not_lt.mpr h]
theorem memWrite_ok {a v : Nat} {s t : State} :
    memWrite a v s = .ok t ↔ a < s.mem.size ∧ t = { s with mem := s.mem.set a v } := by
  unfold memWrite; split <;> simp_all [eq_comm]
theorem memWrite_error {a v : Nat} {s : State} {x : Exn} :
    memWrite a v s = .error x ↔ s.mem.size ≤ a ∧ x = .outOfBounds a := by
  unfold memWrite; split
  · rename_i h; simp [Nat.not_le.mpr h]
  · rename_i h; simp [Nat.not_lt.mp h, eq_comm]

theorem narrow_fits {p : Params} {r : Nat} (h : r < 2 ^ p.width) : narrow p r = .ok r := by simp [narrow, h]
theorem narrow_fault {p : Params} {r : Nat} (h : 2 ^ p.width ≤ r) (hm : p.ovfMode = .fault) :
    narrow p r = .error (.arithOverflow (truncW p.width r)) := by simp [narrow, Nat.not_lt.mpr h, hm]
theorem narrow_wrap {p : Params} {r : Nat} (h : 2 ^ p.width ≤ r) (hm : p.ovfMode = .wrap) :
    narrow p r = .ok (truncW p.width r) := by simp [narrow, Nat.not_lt.mpr h, hm]
/-- Everything the overflow test can answer. -/
theorem narrow_cases (p : Params) (r : Nat) :
    (narrow p r = .ok (truncW p.width r) ∧ (r < 2 ^ p.width ∨ p.ovfMode = .wrap)) ∨
    (narrow p r = .error (.arithOverflow (truncW p.width r)) ∧ 2 ^ p.width ≤ r ∧ p.ovfMode = .fault) := by
  by_cases h : r < 2 ^ p.width
  · exact .inl ⟨by rw [narrow_fits h, truncW, Nat.mod_eq_of_lt h], .inl h⟩
  · cases hm : p.ovfMode with
    | fault => exact .inr ⟨narrow_fault (Nat.not_lt.mp h) hm, Nat.not_lt.mp h, rfl⟩
    | wrap => exact .inl ⟨narrow_wrap (Nat.not_lt.mp h) hm, .inr rfl⟩

theorem truncW_lt (W v : Nat) : truncW W v < 2 ^ W := Nat.mod_lt _ (Nat.two_pow_pos W)

theorem inPop_some {s : State} {v : Nat} (h : s.input.get? s.params.width s.inPos = some v) :
    inPop s = .ok (v, { s with inPos := s.inPos + 1 }) := by simp [inPop, h]
theorem inPop_none {s : State} (h : s.input.get? s.params.width s.inPos = none) :
    inPop s = .error .inputExhausted := by simp [inPop, h]

/-- In an admitted INPUT every value is one cell (R13, R108). -/
theorem input_get?_bound {W : Nat} {inp : Input} (h : inp.wf W = true) {k : Nat} {v : Nat}
    (hv : inp.get? W k = some v) : v < 2 ^ W := by
  cases inp with
  | finite values =>
    simp only [Input.wf, List.all_eq_true, decide_eq_true_eq] at h
    exact h v (List.mem_of_getElem? hv)
  | infinite first source =>
    simp only [Input.wf, List.all_eq_true, decide_eq_true_eq] at h
    simp only [Input.get?] at hv
    split at hv
    · rename_i u hu; cases hv; exact h v (List.mem_of_getElem? hu)
    · cases hv; exact truncW_lt _ _

theorem fetchOne_some {c : Nat} {s : State} {v : Nat} (h : s.mem.get? c = some v) :
    fetchOne c s = .ok (v, c + 1) := by simp [fetchOne, memRead_some h]
theorem fetchOne_none {c : Nat} {s : State} (h : s.mem.get? c = none) :
    fetchOne c s = .error (.outOfBounds c) := by simp [fetchOne, memRead_none h]

/-- The fetch of the cell at an offset is the read at `pc` plus the offset (R52). -/
theorem fetchCell_eq (s : State) (k : Nat) : fetchCell s k = memRead (s.pc + k) s := by
  unfold fetchCell fetchOne; cases memRead (s.pc + k) s <;> rfl

/-! ### Placing a row of cells -/

theorem Memory.wf_grow {W N : Nat} {m : Memory} (hm : m.wf W = true) (hle : m.size ≤ N) (hN : N ≤ 2 ^ W - 2) :
    ({ m with size := N } : Memory).wf W = true := by
  obtain ⟨-, hs, he⟩ := Memory.wf_iff.mp hm
  exact Memory.wf_iff.mpr ⟨hN, hs, fun e h => ⟨Nat.lt_of_lt_of_le (he e h).1 hle, (he e h).2⟩⟩

/-- Placing cells keeps the canonical form, where there is room for them. -/
theorem Memory.place_wf {W : Nat} {m : Memory} {a : Nat} {l : List Nat} (hm : m.wf W = true)
    (hroom : a + l.length ≤ 2 ^ W - 2) (hl : ∀ v ∈ l, v < 2 ^ W) : (m.place a l).wf W = true := by
  induction l generalizing m a with
  | nil => exact hm
  | cons v t ih =>
    simp only [List.length_cons] at hroom
    refine ih (Memory.wf_set (Memory.wf_grow hm (Nat.le_max_left _ _) ?_) ?_ (hl v (by simp))) (by omega)
      fun u hu => hl u (by simp [hu])
    · exact max_le (Memory.wf_iff.mp hm).1 (by omega)
    · exact lt_of_lt_of_le (Nat.lt_succ_self a) (Nat.le_max_right _ _)

/-- Placing cells leaves the cells below them alone. -/
theorem Memory.place_below {m : Memory} {a : Nat} {l : List Nat} {x : Nat} (hx : x < a) (hm : x < m.size) :
    (m.place a l).get? x = m.get? x := by
  induction l generalizing m a with
  | nil => rfl
  | cons v t ih =>
    rw [Memory.place, ih (by omega) (by simp only [Memory.set_size]; omega),
      Memory.get?_set (by simp only; omega), if_neg (by omega)]
    simp only [Memory.get?, hm, if_true, show x < max m.size (a + 1) by omega]

/-- Placed cells read as they were placed. -/
theorem Memory.place_get? {m : Memory} {a k : Nat} {l : List Nat} {v : Nat} (h : l[k]? = some v) :
    (m.place a l).get? (a + k) = some v := by
  induction l generalizing m a k with
  | nil => simp at h
  | cons u t ih =>
    rw [Memory.place]
    cases k with
    | zero =>
      rw [Memory.place_below (by omega) (by simp only [Memory.set_size]; omega),
        Memory.get?_set (by simp only; omega)]
      simpa using h
    | succ k => rw [show a + (k + 1) = a + 1 + k by omega]; exact ih (by simpa using h)

/-- The memory after reset is in canonical form. -/
theorem State.reset_mem_wf : State.reset.mem.wf State.reset.params.width = true := by decide

end Sys2Proof.Machine
end

