-- ==== Sys2Proof/Laws/Exec.lean ====
section
/-! SUPPORT. Everything the fetch, each meaning and the step can answer: one inversion lemma each, which the proofs
cite in place of unfolding them. -/

namespace Sys2Proof.Machine

/-- The instruction at `pc` is `i`: its opcode cell names its handler and its operand cells follow it (R51, R52). -/
theorem fetchInstr_ok {s : State} {i : Instr} : fetchInstr s = .ok i ↔
    ∃ op, s.mem.get? s.pc = some op ∧ s.params.rom.lookup op = some i.handler ∧
      ∀ k v, i.operands[k]? = some v → s.mem.get? (s.pc + (k + 1)) = some v := by
  unfold fetchInstr
  simp only [decodeFrom_ok, fetchCell_eq, memRead_ok, Nat.add_zero]

/-- Everything the fetch can answer (R63, R64, R62). -/
theorem fetchInstr_cases (s : State) :
    (s.mem.get? s.pc = none ∧ fetchInstr s = .error (.outOfBounds s.pc)) ∨
    ∃ op, s.mem.get? s.pc = some op ∧
      ((s.params.rom.lookup op = none ∧ fetchInstr s = .error (.malformedProgram op)) ∨
      (∃ i : Instr, s.params.rom.lookup op = some i.handler ∧
        (∀ k v, i.operands[k]? = some v → s.mem.get? (s.pc + (k + 1)) = some v) ∧ fetchInstr s = .ok i) ∨
      ∃ h k, s.params.rom.lookup op = some h ∧ k + 1 < h.length ∧ s.mem.get? (s.pc + k) ≠ none ∧
        s.mem.get? (s.pc + (k + 1)) = none ∧ fetchInstr s = .error (.outOfBounds (s.pc + (k + 1)))) := by
  have hc := decodeFrom_cases s.params.rom (fetchCell s) Exn.malformedProgram
  simp only [fetchCell_eq, memRead_ok, memRead_error, Nat.add_zero] at hc
  obtain ⟨e, ⟨h0, rfl⟩, hd⟩ | ⟨op, h0, ⟨hl, hd⟩ | ⟨i, hl, hr, hd⟩ | ⟨h, k, e, hl, hk, hj, ⟨hn, rfl⟩, hd⟩⟩ := hc
  · exact .inl ⟨h0, hd⟩
  · exact .inr ⟨op, h0, .inl ⟨hl, hd⟩⟩
  · exact .inr ⟨op, h0, .inr (.inl ⟨i, hl, hr, hd⟩)⟩
  · refine .inr ⟨op, h0, .inr (.inr ⟨h, k, hl, hk, ?_, hn, hd⟩)⟩
    cases k with
    | zero => simp [h0]
    | succ k =>
      obtain ⟨v, hv⟩ := hj k (Nat.lt_succ_self k)
      simp [hv]

/-- Every fault of the fetch, with its cause (R63, R64, R62). -/
theorem fetchInstr_error {s : State} {x : Exn} (h : fetchInstr s = .error x) :
    (s.mem.get? s.pc = none ∧ x = .outOfBounds s.pc) ∨
    (∃ op, s.mem.get? s.pc = some op ∧ s.params.rom.lookup op = none ∧ x = .malformedProgram op) ∨
    ∃ op h k, s.mem.get? s.pc = some op ∧ s.params.rom.lookup op = some h ∧ k + 1 < h.length ∧
      s.mem.get? (s.pc + k) ≠ none ∧ s.mem.get? (s.pc + (k + 1)) = none ∧ x = .outOfBounds (s.pc + (k + 1)) := by
  obtain ⟨hn, hf⟩ | ⟨op, h0, ⟨hl, hf⟩ | ⟨i, -, -, hf⟩ | ⟨h', k, hl, hk, hs, hn, hf⟩⟩ := fetchInstr_cases s <;>
    rw [h] at hf <;> cases hf
  · exact .inl ⟨hn, rfl⟩
  · exact .inr (.inl ⟨op, h0, hl, rfl⟩)
  · exact .inr (.inr ⟨op, h', k, h0, hl, hk, hs, hn, rfl⟩)

/-- The fetch looks at `pc`, the memory and the ROM, and at nothing else (R63). -/
theorem fetchInstr_congr {s u : State} (hp : u.params = s.params) (hpc : u.pc = s.pc) (hm : u.mem = s.mem) :
    fetchInstr u = fetchInstr s := by
  have : fetchCell u = fetchCell s := by funext k; simp only [fetchCell_eq, memRead, hpc, hm]
  rw [fetchInstr, fetchInstr, this, hp]

/-- A fetched instruction lies whole below `N`. -/
theorem fetchInstr_ok_end {s : State} {i : Instr} (h : fetchInstr s = .ok i) :
    s.pc + i.handler.length ≤ s.mem.size := by
  obtain ⟨op, h0, -, hr⟩ := fetchInstr_ok.mp h
  have hp := Memory.get?_lt h0
  cases i with
  | add a b d => exact Memory.get?_lt (hr 2 d rfl)
  | mul a b d => exact Memory.get?_lt (hr 2 d rfl)
  | inp d => exact Memory.get?_lt (hr 0 d rfl)
  | out d => exact Memory.get?_lt (hr 0 d rfl)
  | halt => exact hp

/-- Everything ADD and MUL can answer, in the order the faults are tested (R74, R75, R96). -/
theorem arith_cases (f : Nat → Nat → Nat) (a b d : Nat) (s : State) :
    (s.mem.get? a = none ∧ arith f a b d s = .next (raise (.outOfBounds a) s)) ∨
    ∃ va, s.mem.get? a = some va ∧
      ((s.mem.get? b = none ∧ arith f a b d s = .next (raise (.outOfBounds b) s)) ∨
      ∃ vb, s.mem.get? b = some vb ∧
        ((2 ^ s.params.width ≤ f va vb ∧ s.params.ovfMode = .fault ∧
          arith f a b d s = .next (raise (.arithOverflow (truncW s.params.width (f va vb))) s)) ∨
        ((f va vb < 2 ^ s.params.width ∨ s.params.ovfMode = .wrap) ∧
          ((s.mem.size ≤ d ∧ arith f a b d s = .next (raise (.outOfBounds d) s)) ∨
          (d < s.mem.size ∧ arith f a b d s =
            .next { s with mem := s.mem.set d (truncW s.params.width (f va vb)), pc := s.pc + 4 }))))) := by
  unfold arith
  cases ha : s.mem.get? a with
  | none => exact .inl ⟨rfl, by simp [memRead_none ha]⟩
  | some va =>
    refine .inr ⟨va, rfl, ?_⟩
    cases hb : s.mem.get? b with
    | none => exact .inl ⟨rfl, by simp [memRead_some ha, memRead_none hb]⟩
    | some vb =>
      refine .inr ⟨vb, rfl, ?_⟩
      obtain ⟨hn, hf⟩ | ⟨hn, hle, hm⟩ := narrow_cases s.params (f va vb)
      · refine .inr ⟨hf, ?_⟩
        by_cases hd : d < s.mem.size
        · exact .inr ⟨hd, by simp [memRead_some ha, memRead_some hb, hn, memWrite_in hd, continueAt]⟩
        · exact .inl ⟨Nat.not_lt.mp hd,
            by simp [memRead_some ha, memRead_some hb, hn, memWrite_out (Nat.not_lt.mp hd)]⟩
      · exact .inl ⟨hle, hm, by simp [memRead_some ha, memRead_some hb, hn]⟩

/-- Everything IN can answer (R82). -/
theorem execInp_cases (d : Nat) (s : State) :
    (s.input.get? s.params.width s.inPos = none ∧ execInp d s = .next (raise .inputExhausted s)) ∨
    ∃ v, s.input.get? s.params.width s.inPos = some v ∧
      ((s.mem.size ≤ d ∧ execInp d s = .next (raise (.outOfBounds d) { s with inPos := s.inPos + 1 })) ∨
      (d < s.mem.size ∧ execInp d s =
        .next { s with inPos := s.inPos + 1, mem := s.mem.set d v, pc := s.pc + 2 })) := by
  unfold execInp
  cases hv : s.input.get? s.params.width s.inPos with
  | none => exact .inl ⟨rfl, by simp [inPop_none hv]⟩
  | some v =>
    refine .inr ⟨v, rfl, ?_⟩
    by_cases hd : d < s.mem.size
    · exact .inr ⟨hd, by
        rw [inPop_some hv, orRaise_ok, memWrite_in (s := { s with inPos := s.inPos + 1 }) hd]; rfl⟩
    · exact .inl ⟨Nat.not_lt.mp hd, by
        rw [inPop_some hv, orRaise_ok,
          memWrite_out (s := { s with inPos := s.inPos + 1 }) (Nat.not_lt.mp hd)]; rfl⟩

/-- Everything OUT can answer (R83). -/
theorem execOut_cases (a : Nat) (s : State) :
    (s.mem.get? a = none ∧ execOut a s = .next (raise (.outOfBounds a) s)) ∨
    ∃ v, s.mem.get? a = some v ∧
      execOut a s = .next { s with outLog := s.outLog ++ [v], pc := s.pc + 2 } := by
  unfold execOut
  cases hv : s.mem.get? a with
  | none => exact .inl ⟨rfl, by simp [memRead_none hv]⟩
  | some v => exact .inr ⟨v, rfl, by rw [memRead_some hv, orRaise_ok]; rfl⟩

/-- Where a step runs at all, it fetches and then executes or takes the fetch's fault (R61). -/
theorem step_running {s : State} (h : s.status.state = .running) :
    step s = orRaise s (fetchInstr s) fun i => exec i s := by simp [step, h]

/-- Outside Running no step is defined (R19). -/
theorem step_ended {s : State} (h : s.status.state ≠ .running) : ∃ r, step s = .fault r := by
  unfold step; cases hs : s.status.state with
  | running => exact absurd hs h
  | halted => exact ⟨_, rfl⟩
  | faulted => exact ⟨_, rfl⟩

/-- When a step answers a next state, the machine was Running. -/
theorem running_of_step {s t : State} (h : step s = .next t) : s.status.state = .running := by
  by_contra hn; obtain ⟨r, hr⟩ := step_ended hn; rw [h] at hr; cases hr

/-- What a successful step that does not halt does to the state, with the instruction that did it. -/
inductive Completed (s : State) : Instr → State → Prop where
  | add (a b d va vb : Nat) (ha : s.mem.get? a = some va) (hb : s.mem.get? b = some vb)
      (hf : va + vb < 2 ^ s.params.width ∨ s.params.ovfMode = .wrap) (hd : d < s.mem.size) :
      Completed s (.add a b d) { s with mem := s.mem.set d (truncW s.params.width (va + vb)), pc := s.pc + 4 }
  | mul (a b d va vb : Nat) (ha : s.mem.get? a = some va) (hb : s.mem.get? b = some vb)
      (hf : va * vb < 2 ^ s.params.width ∨ s.params.ovfMode = .wrap) (hd : d < s.mem.size) :
      Completed s (.mul a b d) { s with mem := s.mem.set d (truncW s.params.width (va * vb)), pc := s.pc + 4 }
  | inp (d v : Nat) (hv : s.input.get? s.params.width s.inPos = some v) (hd : d < s.mem.size) :
      Completed s (.inp d) { s with inPos := s.inPos + 1, mem := s.mem.set d v, pc := s.pc + 2 }
  | out (a v : Nat) (hv : s.mem.get? a = some v) :
      Completed s (.out a) { s with outLog := s.outLog ++ [v], pc := s.pc + 2 }

/-- What fault an executing instruction takes, and in which state it takes it (R82: an IN has popped before its
destination is found out of bounds). -/
inductive Faults (s : State) : Instr → Exn → State → Prop where
  | addLeft (a b d : Nat) (ha : s.mem.get? a = none) : Faults s (.add a b d) (.outOfBounds a) s
  | addRight (a b d va : Nat) (ha : s.mem.get? a = some va) (hb : s.mem.get? b = none) :
      Faults s (.add a b d) (.outOfBounds b) s
  | addOverflow (a b d va vb : Nat) (ha : s.mem.get? a = some va) (hb : s.mem.get? b = some vb)
      (hr : 2 ^ s.params.width ≤ va + vb) (hm : s.params.ovfMode = .fault) :
      Faults s (.add a b d) (.arithOverflow (truncW s.params.width (va + vb))) s
  | addDest (a b d va vb : Nat) (ha : s.mem.get? a = some va) (hb : s.mem.get? b = some vb)
      (hf : va + vb < 2 ^ s.params.width ∨ s.params.ovfMode = .wrap) (hd : s.mem.size ≤ d) :
      Faults s (.add a b d) (.outOfBounds d) s
  | mulLeft (a b d : Nat) (ha : s.mem.get? a = none) : Faults s (.mul a b d) (.outOfBounds a) s
  | mulRight (a b d va : Nat) (ha : s.mem.get? a = some va) (hb : s.mem.get? b = none) :
      Faults s (.mul a b d) (.outOfBounds b) s
  | mulOverflow (a b d va vb : Nat) (ha : s.mem.get? a = some va) (hb : s.mem.get? b = some vb)
      (hr : 2 ^ s.params.width ≤ va * vb) (hm : s.params.ovfMode = .fault) :
      Faults s (.mul a b d) (.arithOverflow (truncW s.params.width (va * vb))) s
  | mulDest (a b d va vb : Nat) (ha : s.mem.get? a = some va) (hb : s.mem.get? b = some vb)
      (hf : va * vb < 2 ^ s.params.width ∨ s.params.ovfMode = .wrap) (hd : s.mem.size ≤ d) :
      Faults s (.mul a b d) (.outOfBounds d) s
  | inpExhausted (d : Nat) (hv : s.input.get? s.params.width s.inPos = none) : Faults s (.inp d) .inputExhausted s
  | inpDest (d v : Nat) (hv : s.input.get? s.params.width s.inPos = some v) (hd : s.mem.size ≤ d) :
      Faults s (.inp d) (.outOfBounds d) { s with inPos := s.inPos + 1 }
  | outSource (a : Nat) (ha : s.mem.get? a = none) : Faults s (.out a) (.outOfBounds a) s

/-- Everything an instruction can do: complete, halt, or take a fault. -/
theorem exec_cases (i : Instr) (s : State) :
    (∃ t, Completed s i t ∧ exec i s = .next t) ∨ (i = .halt ∧ exec i s = .next (haltRun s)) ∨
    ∃ x u, Faults s i x u ∧ exec i s = .next (raise x u) := by
  cases i with
  | add a b d =>
    obtain ⟨ha, h⟩ | ⟨va, ha, ⟨hb, h⟩ | ⟨vb, hb, ⟨hr, hm, h⟩ | ⟨hf, ⟨hd, h⟩ | ⟨hd, h⟩⟩⟩⟩ :=
      arith_cases (fun x y => x + y) a b d s
    · exact .inr (.inr ⟨_, _, .addLeft a b d ha, h⟩)
    · exact .inr (.inr ⟨_, _, .addRight a b d va ha hb, h⟩)
    · exact .inr (.inr ⟨_, _, .addOverflow a b d va vb ha hb hr hm, h⟩)
    · exact .inr (.inr ⟨_, _, .addDest a b d va vb ha hb hf hd, h⟩)
    · exact .inl ⟨_, .add a b d va vb ha hb hf hd, h⟩
  | mul a b d =>
    obtain ⟨ha, h⟩ | ⟨va, ha, ⟨hb, h⟩ | ⟨vb, hb, ⟨hr, hm, h⟩ | ⟨hf, ⟨hd, h⟩ | ⟨hd, h⟩⟩⟩⟩ :=
      arith_cases (fun x y => x * y) a b d s
    · exact .inr (.inr ⟨_, _, .mulLeft a b d ha, h⟩)
    · exact .inr (.inr ⟨_, _, .mulRight a b d va ha hb, h⟩)
    · exact .inr (.inr ⟨_, _, .mulOverflow a b d va vb ha hb hr hm, h⟩)
    · exact .inr (.inr ⟨_, _, .mulDest a b d va vb ha hb hf hd, h⟩)
    · exact .inl ⟨_, .mul a b d va vb ha hb hf hd, h⟩
  | inp d =>
    obtain ⟨hv, h⟩ | ⟨v, hv, ⟨hd, h⟩ | ⟨hd, h⟩⟩ := execInp_cases d s
    · exact .inr (.inr ⟨_, _, .inpExhausted d hv, h⟩)
    · exact .inr (.inr ⟨_, _, .inpDest d v hv hd, h⟩)
    · exact .inl ⟨_, .inp d v hv hd, h⟩
  | out a =>
    obtain ⟨ha, h⟩ | ⟨v, hv, h⟩ := execOut_cases a s
    · exact .inr (.inr ⟨_, _, .outSource a ha, h⟩)
    · exact .inl ⟨_, .out a v hv, h⟩
  | halt => exact .inr (.inl ⟨rfl, rfl⟩)

/-- Everything a step of a Running machine can do (R61): an instruction was fetched and completed, halted or faulted,
or the fetch faulted. -/
theorem step_cases {s : State} (h : s.status.state = .running) :
    (∃ i t, fetchInstr s = .ok i ∧ Completed s i t ∧ step s = .next t) ∨
    (fetchInstr s = .ok .halt ∧ step s = .next (haltRun s)) ∨
    (∃ i x u, fetchInstr s = .ok i ∧ Faults s i x u ∧ step s = .next (raise x u)) ∨
    ∃ x, fetchInstr s = .error x ∧ step s = .next (raise x s) := by
  rw [step_running h]
  cases hf : fetchInstr s with
  | error x => exact .inr (.inr (.inr ⟨x, rfl, rfl⟩))
  | ok i =>
    obtain ⟨t, hc, he⟩ | ⟨rfl, he⟩ | ⟨x, u, hx, he⟩ := exec_cases i s
    · exact .inl ⟨i, t, rfl, hc, he⟩
    · exact .inr (.inl ⟨rfl, he⟩)
    · exact .inr (.inr (.inl ⟨i, x, u, rfl, hx, he⟩))

/-- A completed instruction advances `pc` past its own cells and leaves STATUS, FINFO, `N`, the parameters and INPUT
alone (R66). -/
theorem Completed.frame {s t : State} {i : Instr} (h : Completed s i t) :
    t.pc = s.pc + i.handler.length ∧ t.status = s.status ∧ t.finfo = s.finfo ∧ t.mem.size = s.mem.size ∧
      t.params = s.params ∧ t.input = s.input := by
  cases h <;> exact ⟨rfl, rfl, rfl, rfl, rfl, rfl⟩

/-- A faulting instruction changes nothing but `IN_POS` before the fault is taken (R68). -/
theorem Faults.frame {s u : State} {i : Instr} {x : Exn} (h : Faults s i x u) :
    u.pc = s.pc ∧ u.status = s.status ∧ u.finfo = s.finfo ∧ u.mem = s.mem ∧ u.outLog = s.outLog ∧
      u.params = s.params ∧ u.input = s.input := by
  cases h <;> exact ⟨rfl, rfl, rfl, rfl, rfl, rfl, rfl⟩

/-- A step leaves the run's configuration as it is (R26; log 1). -/
theorem step_config {s t : State} (h : step s = .next t) : t.toRunConfig = s.toRunConfig := by
  obtain ⟨i, u, -, hc, he⟩ | ⟨-, he⟩ | ⟨i, x, u, -, hx, he⟩ | ⟨x, -, he⟩ := step_cases (running_of_step h) <;>
    rw [h] at he <;> cases he
  · cases hc <;> rfl
  · rfl
  · cases hx <;> rfl
  · rfl

/-- The machine over the six items answers what the step answers, without the configuration (R15). -/
theorem archStep_next {s t : State} (h : step s = .next t) :
    archStep s.toRunConfig s.toArchState = .next t.toArchState := by simp only [archStep, h]

/-- The machine over the six items stops where the step stops, for the same reason (R15, R19). -/
theorem archStep_fault {s : State} {r : Fault} (h : step s = .fault r) :
    archStep s.toRunConfig s.toArchState = .fault r := by simp only [archStep, h]

end Sys2Proof.Machine
end

