-- ==== Sys2Proof/Laws/PerInstr.lean ====
section
/-! SUPPORT. The per-instruction families of `LAWS.json`. -/

namespace Sys2Proof.Laws

/-- Family `CellCount`: an instruction fills as many cells as its handler's length says, and at least one and at most
four (R49, R53). -/
def CellCount.Statement (i : Instr) : Prop :=
  i.handler.length = i.operands.length + 1 ∧ i.handler.length ≤ 4

theorem CellCount.add (a b d : Nat) : CellCount.Statement (.add a b d) := ⟨rfl, by simp [Instr.handler, Handler.length]⟩
theorem CellCount.mul (a b d : Nat) : CellCount.Statement (.mul a b d) := ⟨rfl, by simp [Instr.handler, Handler.length]⟩
theorem CellCount.inp (d : Nat) : CellCount.Statement (.inp d) := ⟨rfl, by simp [Instr.handler, Handler.length]⟩
theorem CellCount.out (s : Nat) : CellCount.Statement (.out s) := ⟨rfl, by simp [Instr.handler, Handler.length]⟩
theorem CellCount.halt : CellCount.Statement .halt := ⟨rfl, by simp [Instr.handler, Handler.length]⟩

end Sys2Proof.Laws
end

