-- ==== Sys2Proof/Laws/Run.lean ====
section
/-! SUPPORT. The run loop: one unrolling, its ends, and its induction packaged once. -/

namespace Sys2Proof.Machine

@[simp] theorem run_zero (s : State) : run 0 s = s := rfl

/-- A run that takes a step goes on from where it led. -/
theorem run_next {s t : State} (h : step s = .next t) (k : Nat) : run (k + 1) s = run k t := by rw [run, h]

/-- An ended run stays where it is (R112). -/
theorem run_ended {s : State} (h : s.status.state ≠ .running) (k : Nat) : run k s = s := by
  cases k with
  | zero => rfl
  | succ k => obtain ⟨r, hr⟩ := step_ended h; rw [run, hr]

/-- What every step keeps, every run keeps. -/
theorem run_induction {P : State → Prop} (hstep : ∀ s t, P s → step s = .next t → P t) (k : Nat) {s : State}
    (h : P s) : P (run k s) := by
  induction k generalizing s with
  | zero => exact h
  | succ k ih =>
    cases hs : step s with
    | next t => rw [run_next hs]; exact ih (hstep _ _ h hs)
    | fault r => rw [run, hs]; exact h
    | refused r => rw [run, hs]; exact h

end Sys2Proof.Machine
end

