-- ==== Sys2Proof/Tests/Slice0.lean ====
section
/-! SUPPORT. The model's own tests: ill-formed instructions, words written out from the spec's formats, single steps whose
results are in `95_test_vectors.md` (the vector's id stands in each name's comment), and for each statement with
hypotheses a concrete state and operands that meet them. -/

namespace Sys2Proof.Tests

open Sys2Proof Sys2Proof.Machine

/-- A launch under the default parameters. -/
def start (image : List Nat) (input : List Nat := []) : State := launch Params.default image (.finite input)

/-- The same in mode wrap. -/
def startWrap (image : List Nat) : State := launch { Params.default with ovfMode := .wrap } image (.finite [])

/-- The state after one outcome, if there is one. -/
def stateOf (o : Outcome) : Option State :=
  match o with
  | .next t => some t
  | .fault _ => none
  | .refused _ => none

/-- The state after one step, if there is one. -/
def after (s : State) : Option State := stateOf (step s)

/-- The state after one step, or the state itself. -/
def next (s : State) : State := (after s).getD s

/-- STATUS, FINFO and `pc` after one step. -/
def ended (s : State) : Option (Status × Nat × Nat) := (after s).map fun t => (t.status, t.finfo, t.pc)

/-- A run that is over. -/
def overState : State := { start [99] with pc := 2 ^ 64 - 1, status := { state := .halted, cause := .none } }

/-! ### Ill-formed instructions are refused -/

theorem test_wf_widest_operands :
    Instr.wf 64 (.add (2 ^ 64 - 1) 0 (2 ^ 64 - 1)) = true ∧ Instr.wf 8 (.out 255) = true := by decide
theorem test_wf_add_refuses :
    Instr.wf 64 (.add (2 ^ 64) 0 0) = false ∧ Instr.wf 64 (.add 0 (2 ^ 64) 0) = false ∧
      Instr.wf 64 (.add 0 0 (2 ^ 64)) = false := by decide
theorem test_wf_mul_refuses :
    Instr.wf 64 (.mul (2 ^ 64) 0 0) = false ∧ Instr.wf 64 (.mul 0 (2 ^ 64) 0) = false ∧
      Instr.wf 64 (.mul 0 0 (2 ^ 64)) = false := by decide
theorem test_wf_inp_out_refuse : Instr.wf 64 (.inp (2 ^ 64)) = false ∧ Instr.wf 8 (.out 256) = false := by decide
theorem test_params_wf_refuses :
    Params.wf { Params.default with width := 7 } = false ∧
      Params.wf { Params.default with rom := [(2, .add), (1, .mul)] } = false ∧
      Params.wf { Params.default with rom := [(2 ^ 64, .add)] } = false ∧ Params.wf Params.default = true := by decide
theorem test_memory_wf_refuses :
    Memory.wf 8 { size := 255, cells := [] } = false ∧ Memory.wf 8 { size := 3, cells := [(3, 1)] } = false ∧
      Memory.wf 8 { size := 3, cells := [(0, 0)] } = false ∧ Memory.wf 8 { size := 3, cells := [(0, 256)] } = false ∧
      Memory.wf 8 { size := 3, cells := [(1, 1), (0, 1)] } = false ∧ Memory.wf 8 { size := 254, cells := [] } = true := by
  decide

/-! ### Decoding: cells written out from the formats of R49 and the numbers of R54 -/

theorem test_decode_add : decode Rom.default [1, 9, 10, 3, 2] = .ok (.add 9 10 3, [2]) := by decide
theorem test_decode_mul : decode Rom.default [2, 3, 11, 0] = .ok (.mul 3 11 0, []) := by decide
theorem test_decode_inp : decode Rom.default [3, 3, 99] = .ok (.inp 3, [99]) := by decide
theorem test_decode_out : decode Rom.default [4, 5, 4] = .ok (.out 5, [4]) := by decide
theorem test_decode_halt : decode Rom.default [99] = .ok (.halt, []) := by decide
theorem test_decode_unknown :
    decode Rom.default [0] = .error (.unknownOpcode 0) ∧ decode Rom.default [1001, 0, 0, 0] = .error (.unknownOpcode 1001) ∧
      decode Rom.default [] = .error (.noCell 0) ∧ decode Rom.default [1, 0, 0] = .error (.noCell 3) := by decide
/-- Operands at the edges of a cell: the lowest, highest and a middle bit of each of three 64-bit cells. -/
theorem test_decode_table_word_bits :
    decodeTableWord 256 (1 + (2 ^ 63 + 1) * 2 ^ 64 + 2 ^ 32 * 2 ^ 128 + (2 ^ 64 - 1) * 2 ^ 192) =
      some (.add (2 ^ 63 + 1) (2 ^ 32) (2 ^ 64 - 1)) := by decide
/-- The rows of the opcode table, whose word is the opcode cell alone. -/
theorem test_decode_table_rows :
    decodeTableWord 64 1 = some (.add 0 0 0) ∧ decodeTableWord 64 2 = some (.mul 0 0 0) ∧
      decodeTableWord 64 3 = some (.inp 0) ∧ decodeTableWord 64 4 = some (.out 0) ∧
      decodeTableWord 64 99 = some .halt := by decide
/-- Vectors R2, R3 and R4 of section 2.7. -/
theorem test_rom_last_pair_wins :
    Rom.build [(1, .add), (1, .mul)] = [(1, .mul)] ∧ Rom.build [(1, .add), (1, .mul), (1, .add)] = [(1, .add)] ∧
      Rom.build [] = [] := by decide

/-! ### Single steps -/

/-- Vector F1: no cell at all. -/
theorem test_step_empty_memory : ended (start []) = some (⟨.faulted, .outOfBounds⟩, 0, 0) := by decide
/-- Vector F3: the whole cell is the opcode. -/
theorem test_step_no_mode_digits :
    ended (start [1001, 0, 0, 0, 99]) = some (⟨.faulted, .malformedProgram⟩, 1001, 0) := by decide
/-- Vector F7: the third operand cell is beyond memory. -/
theorem test_step_operand_beyond_memory : ended (start [1, 0, 0]) = some (⟨.faulted, .outOfBounds⟩, 3, 0) := by decide

/-- Vector A3: the instruction overwrites its own destination operand cell. -/
theorem test_add_overwrites_itself :
    after (start [1, 5, 6, 3, 99, 10, 20]) = some { start [1, 5, 6, 30, 99, 10, 20] with pc := 4 } := by decide
/-- Vector A12: overflow is reported before a destination out of bounds. -/
theorem test_add_overflow_before_destination :
    ended (start [1, 5, 6, 8, 99, 18446744073709551615, 1, 0]) = some (⟨.faulted, .arithOverflow⟩, 0, 0) := by decide
/-- Vector M4: all three operands one cell. -/
theorem test_mul_squares_in_place :
    after (start [2, 5, 5, 5, 99, 12]) = some { start [2, 5, 5, 5, 99, 144] with pc := 4 } := by decide
/-- Vector M8: mode wrap. -/
theorem test_mul_wraps :
    after (startWrap [2, 5, 5, 6, 99, 18446744073709551615, 0]) =
      some { startWrap [2, 5, 5, 6, 99, 18446744073709551615, 1] with pc := 4 } := by decide
/-- Vector I1, first step. -/
theorem test_inp_writes_the_value :
    after (start [3, 3, 99, 0] [42]) = some { start [3, 3, 99, 42] [42] with pc := 2, inPos := 1 } := by decide
/-- Vector I4: the value is popped before the destination is found out of bounds. -/
theorem test_inp_pops_before_the_bounds_check :
    after (start [3, 9, 99] [42]) =
      some { start [3, 9, 99] [42] with status := ⟨.faulted, .outOfBounds⟩, finfo := 9, inPos := 1 } := by decide
/-- Vector O2, first step: the instruction emits its own opcode. -/
theorem test_out_emits_its_opcode :
    after (start [4, 0, 4, 3, 99]) = some { start [4, 0, 4, 3, 99] with pc := 2, outLog := [4] } := by decide
/-- Vector O3. -/
theorem test_out_source_beyond_memory :
    after (start [4, 7, 99]) = some { start [4, 7, 99] with status := ⟨.faulted, .outOfBounds⟩, finfo := 7 } := by decide
/-- Vector H1. -/
theorem test_halt_in_the_last_cell :
    after (start [99]) =
      some { start [99] with pc := 18446744073709551615, status := ⟨.halted, .none⟩ } := by decide
/-- After the end there is no step (R19). -/
theorem test_no_step_after_the_end :
    step overState = .fault .runHalted ∧ after { start [99] with status := ⟨.faulted, .outOfBounds⟩ } = none := by
  exact ⟨rfl, by decide⟩

/-- The table's rows run as the first instruction after reset (IN finds the empty INPUT of `State.reset`). -/
theorem test_reset_runs_table_rows :
    ended (State.reset.withFetchWord 64 1) = some (⟨.running, .none⟩, 0, 4) ∧
      ended (State.reset.withFetchWord 64 2) = some (⟨.running, .none⟩, 0, 4) ∧
      ended (State.reset.withFetchWord 64 3) = some (⟨.faulted, .inputExhausted⟩, 0, 0) ∧
      ended (State.reset.withFetchWord 64 4) = some (⟨.running, .none⟩, 0, 2) ∧
      ended (State.reset.withFetchWord 64 99) = some (⟨.halted, .none⟩, 0, 2 ^ 64 - 1) := by decide
/-- A table word is also placed in a run that is over. -/
theorem test_place_after_the_end : ended (overState.withFetchWord 128 (4 + 2 ^ 64)) = some (⟨.running, .none⟩, 0, 2) := by
  decide
theorem test_reset_is_a_launch : State.reset = start [] := by decide

/-! ### Witnesses: states and operands that meet the hypotheses of the statements -/

theorem witness_EncodedInstructionDecodesBack :
    Table.sorted Rom.default = true ∧ encode Rom.default (.add 9 10 3) = some [1, 9, 10, 3] ∧
      encode Rom.default (.mul 3 11 0) = some [2, 3, 11, 0] ∧ encode Rom.default (.inp 3) = some [3, 3] ∧
      encode Rom.default (.out 5) = some [4, 5] ∧ encode Rom.default .halt = some [99] := by decide
theorem witness_DecodedCellsAreOpcodeThenOperands :
    decode Rom.default [1, 9, 10, 3, 2] = .ok (.add 9 10 3, [2]) := by decide
theorem witness_TableWordDecodesBack :
    Instr.wf 64 (.mul (2 ^ 64 - 1) 0 5) = true ∧ Instr.wf 64 (.inp (2 ^ 64 - 1)) = true := by decide
theorem witness_OpcodeMapOfTheDefaultRom :
    (3 : Nat) ≠ 4 ∧ (3 : Nat) ∉ [1, 2, 99] ∧ (4 : Nat) ∉ [1, 2, 99] := by decide
theorem witness_RomKeepsTheLastPairOfAnOpcode :
    ([(1, Handler.add), (1, Handler.mul)] : List (Nat × Handler))[1]? = some (1, .mul) ∧
      (∀ (j : Nat) (h : Handler), 1 < j →
        ([(1, Handler.add), (1, Handler.mul)] : List (Nat × Handler))[j]? ≠ some (1, h)) ∧
      ∀ h : Handler, ((5, h) : Nat × Handler) ∉ [(1, Handler.add), (1, Handler.mul)] := by
  refine ⟨rfl, fun j h hj => ?_, fun h => by simp⟩
  rw [List.getElem?_eq_none (by simp only [List.length_cons, List.length_nil]; omega)]; simp
theorem witness_StepRunsTheInstructionAtPc :
    (start [1, 5, 6, 7, 99, 20, 22, 0]).status.state = .running ∧
      (∀ (k v : Nat), ([1, 5, 6, 7] : List Nat)[k]? = some v →
        (start [1, 5, 6, 7, 99, 20, 22, 0]).mem.get? ((start [1, 5, 6, 7, 99, 20, 22, 0]).pc + k) = some v) ∧
      decode (start [1, 5, 6, 7, 99, 20, 22, 0]).params.rom [1, 5, 6, 7] = .ok (.add 5 6 7, []) := by
  refine ⟨rfl, fun k v h => ?_, by decide⟩
  match k, h with
  | 0, h => exact h
  | 1, h => exact h
  | 2, h => exact h
  | 3, h => exact h
theorem witness_OpcodeFetchBeyondMemoryFaults :
    ({ start [1, 0, 0, 0] with pc := 4 } : State).status.state = .running ∧
      ({ start [1, 0, 0, 0] with pc := 4 } : State).mem.size ≤ ({ start [1, 0, 0, 0] with pc := 4 } : State).pc := by
  decide
theorem witness_OperandFetchBeyondMemoryFaults :
    (start [1, 0, 0]).status.state = .running ∧ (start [1, 0, 0]).mem.get? (start [1, 0, 0]).pc = some 1 ∧
      (start [1, 0, 0]).params.rom.lookup 1 = some .add ∧ 3 < Handler.add.length ∧
      (start [1, 0, 0]).pc + 3 = (start [1, 0, 0]).mem.size ∧
      (start [3]).params.rom.lookup 3 = some .inp ∧ 1 < Handler.inp.length ∧
      (start [3]).pc + 1 = (start [3]).mem.size := by decide
/-- Premises of the statements about any step, and of both directions of R89. -/
theorem witness_MalformedProgramExactlyOnUnknownOpcode :
    (start [5]).status.state = .running ∧ after (start [5]) = some (next (start [5])) ∧
      (next (start [5])).status = ⟨.faulted, .malformedProgram⟩ ∧ (start [5]).mem.get? (start [5]).pc = some 5 ∧
      (start [5]).params.rom.lookup 5 = none := by decide
theorem witness_NoStepSucceedsWithAnAccessOutOfBounds :
    (start [4, 1]).status.state = .running ∧ after (start [4, 1]) = some (next (start [4, 1])) ∧
      (next (start [4, 1])).status.state ≠ .faulted := by decide
/-- The three clauses, each at `N` exactly: the opcode cell, the one operand cell of an OUT, and an operand address. -/
theorem witness_OutOfBoundsReportsAnAccessedAddress :
    (start [4]).status.state = .running ∧ after (start [4]) = some (next (start [4])) ∧
      (next (start [4])).status = ⟨.faulted, .outOfBounds⟩ ∧ (next (start [4])).finfo = 1 ∧
      after (start [4, 2]) = some (next (start [4, 2])) ∧
      (next (start [4, 2])).status = ⟨.faulted, .outOfBounds⟩ ∧ (next (start [4, 2])).finfo = 2 ∧
      after (start []) = some (next (start [])) ∧
      (next (start [])).status = ⟨.faulted, .outOfBounds⟩ ∧ (next (start [])).finfo = (start []).pc := by decide
theorem witness_InputExhaustedExactlyOnAnEmptySource :
    (start [3, 3, 99, 0]).status.state = .running ∧ after (start [3, 3, 99, 0]) = some (next (start [3, 3, 99, 0])) ∧
      (next (start [3, 3, 99, 0])).status = ⟨.faulted, .inputExhausted⟩ ∧
      fetchInstr (start [3, 3, 99, 0]) = .ok (.inp 3) ∧
      (start [3, 3, 99, 0]).input.get? (start [3, 3, 99, 0]).params.width (start [3, 3, 99, 0]).inPos = none := by decide
/-- A sum of exactly `2^64`, and of one less, which fits. -/
theorem witness_ArithOverflowExactlyOnAResultTooLarge :
    (start [1, 4, 5, 6, 2 ^ 64 - 1, 1]).status.state = .running ∧
      after (start [1, 4, 5, 6, 2 ^ 64 - 1, 1]) = some (next (start [1, 4, 5, 6, 2 ^ 64 - 1, 1])) ∧
      (next (start [1, 4, 5, 6, 2 ^ 64 - 1, 1])).status = ⟨.faulted, .arithOverflow⟩ ∧
      (start [1, 4, 5, 6, 2 ^ 64 - 1, 1]).params.ovfMode = .fault ∧
      fetchInstr (start [1, 4, 5, 6, 2 ^ 64 - 1, 1]) = .ok (.add 4 5 6) ∧
      (start [1, 4, 5, 6, 2 ^ 64 - 1, 1]).mem.get? 4 = some (2 ^ 64 - 1) ∧
      (start [1, 4, 5, 6, 2 ^ 64 - 1, 1]).mem.get? 5 = some 1 ∧
      (next (start [2, 4, 4, 5, 2 ^ 32, 0])).status = ⟨.faulted, .arithOverflow⟩ ∧
      (next (start [1, 4, 5, 5, 2 ^ 64 - 1, 0])).status.state = .running := by decide
/-- The plain fault, and the IN that had popped. -/
theorem witness_FaultHoldsPcAndMemory :
    (start [0]).status.state = .running ∧ after (start [0]) = some (next (start [0])) ∧
      (next (start [0])).status.state = .faulted ∧ after (start [3, 2] [7]) = some (next (start [3, 2] [7])) ∧
      (next (start [3, 2] [7])).status.state = .faulted ∧ (next (start [3, 2] [7])).inPos = 1 := by decide
/-- One step for each of the four rows of R86's table. -/
theorem witness_ProgramCounterAfterAStep :
    (start [1, 0, 0, 0]).status.state = .running ∧ after (start [1, 0, 0, 0]) = some (next (start [1, 0, 0, 0])) ∧
      (next (start [1, 0, 0, 0])).pc = 4 ∧ after (start [4, 0]) = some (next (start [4, 0])) ∧
      (next (start [4, 0])).pc = 2 ∧ after (start [99]) = some (next (start [99])) ∧
      (next (start [99])).pc = 2 ^ 64 - 1 ∧ after (start [0]) = some (next (start [0])) ∧
      (next (start [0])).pc = 0 := by decide
theorem witness_NoCursorReachesTheSentinel :
    8 ≤ (start [4, 0]).params.width ∧ (start [4, 0]).mem.size ≤ 2 ^ (start [4, 0]).params.width - 2 ∧
      after (start [4, 0]) = some (next (start [4, 0])) ∧ (next (start [4, 0])).status.state = .running := by decide
/-- The premises of AddFollowsItsRule, MulFollowsItsRule, InFollowsItsRule, OutFollowsItsRule, HaltFollowsItsRule. -/
theorem witness_InstructionsFollowTheirRules :
    (start [1, 0, 0, 0]).status.state = .running ∧ (start [1, 0, 0, 0]).mem.get? (start [1, 0, 0, 0]).pc = some 1 ∧
      (start [1, 0, 0, 0]).params.rom.lookup 1 = some .add ∧
      (start [2, 0, 0, 0]).mem.get? (start [2, 0, 0, 0]).pc = some 2 ∧
      (start [2, 0, 0, 0]).params.rom.lookup 2 = some .mul ∧
      (start [3, 0] [7]).mem.get? (start [3, 0] [7]).pc = some 3 ∧ (start [3, 0] [7]).params.rom.lookup 3 = some .inp ∧
      (start [4, 0]).mem.get? (start [4, 0]).pc = some 4 ∧ (start [4, 0]).params.rom.lookup 4 = some .out ∧
      (start [99]).mem.get? (start [99]).pc = some 99 ∧ (start [99]).params.rom.lookup 99 = some .halt := by decide
/-- A sum of exactly `2^64 − 1`; and one that wraps. -/
theorem witness_AddCompletes :
    (start [1, 4, 5, 5, 2 ^ 64 - 2, 1]).status.state = .running ∧
      (start [1, 4, 5, 5, 2 ^ 64 - 2, 1]).mem.get? 4 = some (2 ^ 64 - 2) ∧
      (start [1, 4, 5, 5, 2 ^ 64 - 2, 1]).mem.get? 5 = some 1 ∧ 5 < (start [1, 4, 5, 5, 2 ^ 64 - 2, 1]).mem.size ∧
      2 ^ 64 - 2 + 1 < 2 ^ (start [1, 4, 5, 5, 2 ^ 64 - 2, 1]).params.width ∧
      (startWrap [1, 4, 4, 4, 2 ^ 63]).mem.get? 4 = some (2 ^ 63) ∧
      (startWrap [1, 4, 4, 4, 2 ^ 63]).params.ovfMode = .wrap := by decide
theorem witness_MulCompletes :
    (start [2, 4, 5, 5, 2 ^ 32 - 1, 2 ^ 32 + 1]).status.state = .running ∧
      (start [2, 4, 5, 5, 2 ^ 32 - 1, 2 ^ 32 + 1]).mem.get? 4 = some (2 ^ 32 - 1) ∧
      (start [2, 4, 5, 5, 2 ^ 32 - 1, 2 ^ 32 + 1]).mem.get? 5 = some (2 ^ 32 + 1) ∧
      5 < (start [2, 4, 5, 5, 2 ^ 32 - 1, 2 ^ 32 + 1]).mem.size ∧
      (2 ^ 32 - 1) * (2 ^ 32 + 1) < 2 ^ (start [2, 4, 5, 5, 2 ^ 32 - 1, 2 ^ 32 + 1]).params.width ∧
      (startWrap [2, 4, 4, 4, 2 ^ 32]).mem.get? 4 = some (2 ^ 32) ∧
      (startWrap [2, 4, 4, 4, 2 ^ 32]).params.ovfMode = .wrap := by decide
theorem witness_InCompletes :
    (start [3, 3, 99, 0] [42]).status.state = .running ∧
      (start [3, 3, 99, 0] [42]).input.get? (start [3, 3, 99, 0] [42]).params.width 0 = some 42 ∧
      (start [3, 3, 99, 0] [42]).inPos = 0 ∧ 3 < (start [3, 3, 99, 0] [42]).mem.size := by decide
theorem witness_OutAndHaltComplete :
    (start [4, 1]).status.state = .running ∧ (start [4, 1]).mem.get? 1 = some 1 ∧
      (start [99]).status.state = .running := by decide
/-- The premises of ArithmeticFrame, InFrame and OutAndHaltFrame, completed and faulted. -/
theorem witness_Frames :
    stateOf (exec (.add 0 1 2) (start [5, 6, 7])) ≠ none ∧ stateOf (exec (.mul 9 1 2) (start [5, 6, 7])) ≠ none ∧
      stateOf (exec (.inp 1) (start [5, 6] [7])) ≠ none ∧ stateOf (exec (.out 9) (start [5, 6])) ≠ none ∧
      stateOf (exec .halt (start [5])) ≠ none := by decide
/-- Both modes, with the destination out of bounds in mode fault. -/
theorem witness_OverflowFollowsTheMode :
    (start [2 ^ 63]).status.state = .running ∧ (start [2 ^ 63]).mem.get? 0 = some (2 ^ 63) ∧
      2 ^ (start [2 ^ 63]).params.width ≤ 2 ^ 63 + 2 ^ 63 ∧ 2 ^ (start [2 ^ 63]).params.width ≤ 2 ^ 63 * 2 ^ 63 ∧
      (start [2 ^ 63]).params.ovfMode = .fault ∧ (start [2 ^ 63]).mem.size ≤ 9 ∧
      (startWrap [2 ^ 63]).params.ovfMode = .wrap ∧ 0 < (startWrap [2 ^ 63]).mem.size := by decide
theorem witness_SwappingSourcesChangesNothing : 0 < (start [5, 6]).mem.size ∧ 1 < (start [5, 6]).mem.size := by decide
/-- Both clauses, at `N` exactly. -/
theorem witness_LeftSourceIsReportedFirst :
    (start [5, 6]).status.state = .running ∧ (start [5, 6]).mem.size ≤ 2 ∧ 1 < (start [5, 6]).mem.size := by decide
theorem witness_MemWriteChangesOneCell :
    2 ^ 64 - 1 < 2 ^ (start [5, 6]).params.width ∧ 1 < (start [5, 6]).mem.size ∧ (start [5, 6]).mem.size ≤ 2 := by decide
theorem witness_FetchOneReadsAndAdvances :
    (start [5, 6]).mem.size ≤ 2 ^ (start [5, 6]).params.width - 2 ∧ (start [5, 6]).mem.get? 1 = some 6 ∧
      (start [5, 6]).mem.get? 2 = none := by decide
/-- The three clauses: a value left, none left, an infinite source on its listed value and past it. -/
theorem witness_InPopTakesTheNextValue :
    (start [] [7]).input = .finite [7] ∧ ([7] : List Nat)[(start [] [7]).inPos]? = some 7 ∧
      ([] : List Nat).length ≤ (start [] []).inPos ∧
      (launch Params.default [] (.infinite [7] 0)).input = .infinite [7] 0 ∧
      ([7] : List Nat)[(launch Params.default [] (.infinite [7] 0)).inPos]? = some 7 ∧
      ({ launch Params.default [] (.infinite [7] 0) with inPos := 1 } : State).input = .infinite [7] 0 ∧
      ([7] : List Nat)[({ launch Params.default [] (.infinite [7] 0) with inPos := 1 } : State).inPos]? = none := by
  decide
theorem witness_FirstStepFetchesAtAddressZero :
    decode Params.default.rom [4, 1, 99] = .ok (.out 1, [99]) := by decide
/-- A launch at the edges: `W = 8`, the largest cell, `N = 254` would be the largest memory. -/
theorem witness_LaunchMeetsTheInvariant :
    launchOk Params.default [1, 0, 0, 0, 99] (.finite [42]) = true ∧
      launchOk { width := 8, rom := Rom.default, ovfMode := .wrap } [255] (.infinite [255] 0) = true ∧
      launchOk { width := 8, rom := Rom.default, ovfMode := .wrap } [256] (.finite []) = false := by decide
theorem witness_PlacedTableWordRunsNext :
    State.reset.params = Params.default ∧ decodeTableWord 64 99 = some .halt := by decide
/-- A state that meets the invariant and takes a step. -/
theorem witness_StepKeepsTheInvariant :
    (start [1, 0, 0, 0, 99]).Inv ∧ after (start [1, 0, 0, 0, 99]) = some (next (start [1, 0, 0, 0, 99])) := by
  refine ⟨⟨by decide, by decide, by decide, by decide, fun v h => ?_, ?_, by decide, ?_⟩, by decide⟩
  · simp [start] at h
  · exact Nat.zero_le _
  · exact (if_neg (by decide)).mpr ⟨rfl, rfl⟩
/-- A Halted state that meets the invariant, at the sentinel (a Running one stands above). -/
theorem witness_SentinelExactlyWhenHalted : overState.Inv ∧ overState.pc = 2 ^ overState.params.width - 1 := by
  refine ⟨⟨by decide, by decide, by decide, by decide, fun v h => ?_, ?_, by decide, ?_⟩, by decide⟩
  · simp [overState, start] at h
  · exact Nat.zero_le _
  · exact (if_neg (by decide)).mpr ⟨rfl, rfl⟩
/-- The three host actions, each one taken. -/
theorem witness_HostActionsKeepTheInvariant :
    hostAct (.reset Params.default [99] (.finite [])) (start []) ≠ none ∧ hostAct .step (start [99]) ≠ none ∧
      hostAct (.run (some 1)) (start [99]) ≠ none ∧ hostAct (.run none) (start [99]) ≠ none := by decide
theorem witness_CauseAndFinfoOnlyAfterAFault :
    launchOk Params.default [99] (.finite []) = true ∧
      (run 1 (launch Params.default [99] (.finite []))).status.state ≠ .faulted ∧
      launchOk Params.default [0] (.finite []) = true ∧
      (run 1 (launch Params.default [0] (.finite []))).status.state = .faulted := by decide
theorem witness_EndedRunIsFrozen : overState.status.state ≠ .running := by decide
/-- One IN, one OUT, and one step that is neither. -/
theorem witness_OneTransferPerInputOrOutput :
    (start [3, 0] [7]).status.state = .running ∧ after (start [3, 0] [7]) = some (next (start [3, 0] [7])) ∧
      (next (start [3, 0] [7])).inPos = 1 ∧ after (start [4, 0]) = some (next (start [4, 0])) ∧
      (next (start [4, 0])).outLog = [4] ∧ after (start [99]) = some (next (start [99])) := by decide
/-- Program P2's first step, and an IN that writes the next opcode (vector I5). -/
theorem witness_NextFetchSeesTheWrite :
    (start [1, 5, 6, 4, 0, 49, 50]).status.state = .running ∧
      fetchInstr (start [1, 5, 6, 4, 0, 49, 50]) = .ok (.add 5 6 ((start [1, 5, 6, 4, 0, 49, 50]).pc + 4)) ∧
      (start [1, 5, 6, 4, 0, 49, 50]).mem.get? 5 = some 49 ∧ (start [1, 5, 6, 4, 0, 49, 50]).mem.get? 6 = some 50 ∧
      (start [1, 5, 6, 4, 0, 49, 50]).pc + 4 < (start [1, 5, 6, 4, 0, 49, 50]).mem.size ∧
      (start [1, 5, 6, 4, 0, 49, 50]).params.rom.lookup (49 + 50) = some .halt ∧
      fetchInstr (start [2, 5, 6, 4, 0, 9, 11]) = .ok (.mul 5 6 ((start [2, 5, 6, 4, 0, 9, 11]).pc + 4)) ∧
      fetchInstr (start [3, 2, 0] [99]) = .ok (.inp ((start [3, 2, 0] [99]).pc + 2)) ∧
      (start [3, 2, 0] [99]).input.get? 64 (start [3, 2, 0] [99]).inPos = some 99 ∧
      (start [3, 2, 0] [99]).pc + 2 < (start [3, 2, 0] [99]).mem.size := by decide
/-- The premise of ProgramCannotReadTheOutputLog and ProgramCannotReadCauseOrFinfo: a step that answers, one that
completes and one that faults. -/
theorem witness_ProgramCannotRead :
    after (start [4, 1]) = some (next (start [4, 1])) ∧ after (start [0]) = some (next (start [0])) := by decide
/-- Both clauses of the host's read of memory. -/
theorem witness_HostReadsMemoryOnlyAfterTheRun :
    (start [99]).status.state = .running ∧ overState.status.state ≠ .running ∧ overState.mem.get? 0 = some 99 := by decide

end Sys2Proof.Tests
end

section
/-! The memory statements (`20_memory.md`). A store is seen through `memRead`: the cell stored to reads back as the
value stored, every other address answers as before. Both rules are `Memory.get?_set` carried over to the primitives. -/

namespace Sys2Proof.Machine

/-- R35: a read of the cell just stored returns the new value. -/
theorem memRead_mem_set_same {a : Nat} {s : State} (h : a < s.mem.size) (v : Nat) :
    memRead a { s with mem := s.mem.set a v } = .ok v :=
  memRead_some (by simp [Memory.get?_set h])

/-- R35: a store leaves the answer of a read at every other address as it was, out of bounds included. -/
theorem memRead_mem_set_of_ne {a b : Nat} {s : State} (h : a < s.mem.size) (v : Nat) (hb : b ≠ a) :
    memRead b { s with mem := s.mem.set a v } = memRead b s := by
  have hget : (s.mem.set a v).get? b = s.mem.get? b := by rw [Memory.get?_set h, if_neg hb]
  simp only [memRead, hget]

/-- Settles O34: below `N` the next state is `s` with the one cell set; from `N` on there is none. -/
theorem memWriteChangesOneCell : Obligations.MemWriteChangesOneCell := by
  intro s a v _
  constructor
  · intro ha
    exact ⟨{ s with mem := s.mem.set a v }, memWrite_in ha, memRead_mem_set_same ha v,
      fun _ hb => memRead_mem_set_of_ne ha v hb, rfl⟩
  · exact memWrite_out

/-- Settles O33: `Memory.get?` answers a cell exactly below `N`, and `memRead` answers what it answers. -/
theorem memReadIsBoundsChecked : Obligations.MemReadIsBoundsChecked := by
  intro s a
  constructor
  · intro ha
    obtain ⟨v, hv⟩ := Memory.get?_isSome ha
    exact ⟨v, hv, memRead_some hv⟩
  · intro ha
    exact memRead_none (Memory.get?_eq_none.mpr ha)

end Sys2Proof.Machine
end

section
/-! The encoding statements (`30_encoding.md`). `Rom.build` reads its pair list from the left, so a tail of pairs with other
opcodes changes nothing for an opcode: only the last pair that has it counts. -/

namespace Sys2Proof

/-- R55: pairs of other opcodes, added at the end, leave what the ROM answers for an opcode. -/
theorem Rom.lookup_build_append_of_notMem {k : Nat} (pairs : List (Nat × Handler)) {later : List (Nat × Handler)}
    (hk : ∀ h : Handler, (k, h) ∉ later) : (Rom.build (pairs ++ later)).lookup k = (Rom.build pairs).lookup k := by
  induction later using List.reverseRecOn with
  | nil => rw [List.append_nil]
  | append_singleton l p ih =>
    obtain ⟨k', h'⟩ := p
    have hl : ∀ h : Handler, (k, h) ∉ l := fun h hm => hk h (List.mem_append_left _ hm)
    have hne : k ≠ k' := by
      rintro rfl
      exact hk h' (List.mem_append_right _ (List.mem_singleton_self _))
    rw [← List.append_assoc, Rom.lookup_build_append, if_neg hne, ih hl]

/-- Settles O6: the list is cut behind the pair at `j`, and what stands behind the cut has other opcodes. For an opcode
without a pair the cut is at the front. -/
theorem romKeepsTheLastPairOfAnOpcode : Obligations.RomKeepsTheLastPairOfAnOpcode := by
  intro pairs k
  constructor
  · intro j h hj hlast
    have hcut : pairs = (pairs.take j ++ [(k, h)]) ++ pairs.drop (j + 1) := by
      obtain ⟨hlt, hget⟩ := List.getElem?_eq_some_iff.mp hj
      rw [← hget, List.take_append_getElem, List.take_append_drop]
    have hlater : ∀ h' : Handler, (k, h') ∉ pairs.drop (j + 1) := by
      intro h' hm
      obtain ⟨n, hn⟩ := List.mem_iff_getElem?.mp hm
      rw [List.getElem?_drop] at hn
      exact hlast (j + 1 + n) h' (by omega) hn
    rw [hcut, Rom.lookup_build_append_of_notMem _ hlater, Rom.lookup_build_append, if_pos rfl]
  · intro hnone
    calc (Rom.build pairs).lookup k = (Rom.build []).lookup k := Rom.lookup_build_append_of_notMem [] hnone
      _ = none := rfl

end Sys2Proof
end

section
/-! The exception statements (`60_exceptions.md`). Each `raise` is pinned down at its one source: MalformedProgram at the
ROM lookup of the fetch (R89), InputExhausted at the pop of an IN (R91). A step that ends Faulted took a fault either of
the fetched instruction or of the fetch, so a CAUSE leads back to its source. -/

namespace Sys2Proof.Machine

/-! ### Which fault a CAUSE stands for (R87) -/

theorem Exn.cause_eq_malformedProgram {x : Exn} (h : x.cause = .malformedProgram) : ∃ op, x = .malformedProgram op := by
  cases x with
  | malformedProgram op => exact ⟨op, rfl⟩
  | outOfBounds _ => cases h
  | inputExhausted => cases h
  | arithOverflow _ => cases h

theorem Exn.cause_eq_inputExhausted {x : Exn} (h : x.cause = .inputExhausted) : x = .inputExhausted := by
  cases x with
  | inputExhausted => rfl
  | malformedProgram _ => cases h
  | outOfBounds _ => cases h
  | arithOverflow _ => cases h

/-! ### Where each fault is raised -/

/-- R89: the fetch raises MalformedProgram exactly where the opcode cell holds a value the ROM does not map. -/
theorem fetchInstr_malformedProgram {s : State} {op : Nat} :
    fetchInstr s = .error (.malformedProgram op) ↔ s.mem.get? s.pc = some op ∧ s.params.rom.lookup op = none := by
  constructor
  · intro h
    obtain ⟨-, hx⟩ | ⟨op', h0, hl, hx⟩ | ⟨_, _, _, -, -, -, -, -, hx⟩ := fetchInstr_error h
    · cases hx
    · cases hx; exact ⟨h0, hl⟩
    · cases hx
  · rintro ⟨h0, hl⟩
    simp [fetchInstr, decodeFrom, fetchCell_eq, memRead_some h0, hl, bind, Except.bind]

/-- R91: no fetch raises InputExhausted, since it pops nothing. -/
theorem fetchInstr_ne_inputExhausted (s : State) : fetchInstr s ≠ .error .inputExhausted := by
  intro h
  obtain ⟨-, hx⟩ | ⟨_, -, -, hx⟩ | ⟨_, _, _, -, -, -, -, -, hx⟩ := fetchInstr_error h <;> cases hx

/-- R89: no instruction raises MalformedProgram once it is fetched. -/
theorem Faults.ne_malformedProgram {s u : State} {i : Instr} {op : Nat} : ¬ Faults s i (.malformedProgram op) u :=
  nofun

/-- R91: an instruction raises InputExhausted exactly if it is an IN that finds no further value. -/
theorem Faults.inputExhausted_iff {s u : State} {i : Instr} : Faults s i .inputExhausted u ↔
    (∃ d, i = .inp d) ∧ s.input.get? s.params.width s.inPos = none ∧ u = s := by
  constructor
  · rintro ⟨⟩
    exact ⟨⟨_, rfl⟩, ‹_›, rfl⟩
  · rintro ⟨⟨d, rfl⟩, hv, rfl⟩
    exact .inpExhausted d hv

/-! ### The step that takes a fault -/

/-- A step that ends Faulted took a fault of the fetched instruction or of the fetch (R68). -/
theorem step_faulted {s t : State} (h : step s = .next t) (ht : t.status.state = .faulted) :
    (∃ i x u, fetchInstr s = .ok i ∧ Faults s i x u ∧ t = raise x u) ∨
    ∃ x, fetchInstr s = .error x ∧ t = raise x s := by
  have hrun := running_of_step h
  obtain ⟨i, u, -, hc, he⟩ | ⟨-, he⟩ | ⟨i, x, u, hf, hx, he⟩ | ⟨x, hf, he⟩ := step_cases hrun <;>
    rw [h] at he <;> cases he
  · obtain ⟨-, hst, -⟩ := hc.frame
    rw [hst, hrun] at ht; cases ht
  · cases ht
  · exact .inl ⟨i, x, u, hf, hx, rfl⟩
  · exact .inr ⟨x, hf, rfl⟩

/-- A step takes the fault that its fetch raises (R63, R64). -/
theorem step_of_fetchInstr_error {s : State} {x : Exn} (hrun : s.status.state = .running)
    (hf : fetchInstr s = .error x) : step s = .next (raise x s) := by
  rw [step_running hrun, hf, orRaise_error]

/-- A step executes the instruction that its fetch answers (R65). -/
theorem step_of_fetchInstr_ok {s : State} {i : Instr} (hrun : s.status.state = .running)
    (hf : fetchInstr s = .ok i) : step s = exec i s := by
  rw [step_running hrun, hf, orRaise_ok]

/-- R91: an IN without a further value takes InputExhausted in the state it started from. -/
theorem execInp_of_exhausted {s : State} (hv : s.input.get? s.params.width s.inPos = none) (d : Nat) :
    execInp d s = .next (raise .inputExhausted s) := by
  rw [execInp, inPop_none hv, orRaise_error]

/-! ### The statements -/

/-- Settles O10: a CAUSE of MalformedProgram comes from the fetch, and the fetch raises it at the ROM lookup only. -/
theorem malformedProgramExactlyOnUnknownOpcode : Obligations.MalformedProgramExactlyOnUnknownOpcode := by
  intro s t hrun hstep
  have htaken : ∀ op, s.mem.get? s.pc = some op → s.params.rom.lookup op = none →
      t = raise (.malformedProgram op) s := by
    intro op h0 hl
    have he := step_of_fetchInstr_error hrun (fetchInstr_malformedProgram.mpr ⟨h0, hl⟩)
    rw [hstep] at he; cases he; rfl
  refine ⟨⟨fun ht => ?_, ?_⟩, htaken⟩
  · obtain ⟨i, x, u, -, hx, rfl⟩ | ⟨x, hf, rfl⟩ := step_faulted hstep (by rw [ht])
    · obtain ⟨op, rfl⟩ := Exn.cause_eq_malformedProgram (congrArg Status.cause ht)
      exact absurd hx Faults.ne_malformedProgram
    · obtain ⟨op, rfl⟩ := Exn.cause_eq_malformedProgram (congrArg Status.cause ht)
      exact ⟨op, fetchInstr_malformedProgram.mp hf⟩
  · rintro ⟨op, h0, hl⟩
    rw [htaken op h0 hl]; rfl

/-- Settles O13: a CAUSE of InputExhausted comes from a fetched IN that finds no further value. -/
theorem inputExhaustedExactlyOnAnEmptySource : Obligations.InputExhaustedExactlyOnAnEmptySource := by
  intro s t hrun hstep
  have htaken : ∀ d, fetchInstr s = .ok (.inp d) → s.input.get? s.params.width s.inPos = none →
      t = raise .inputExhausted s := by
    intro d hf hv
    have he : step s = .next (raise .inputExhausted s) :=
      (step_of_fetchInstr_ok hrun hf).trans (execInp_of_exhausted hv d)
    rw [hstep] at he; cases he; rfl
  refine ⟨⟨fun ht => ?_, ?_⟩, htaken⟩
  · obtain ⟨i, x, u, hf, hx, rfl⟩ | ⟨x, hf, rfl⟩ := step_faulted hstep (by rw [ht])
    · obtain rfl := Exn.cause_eq_inputExhausted (congrArg Status.cause ht)
      obtain ⟨⟨d, rfl⟩, hv, -⟩ := Faults.inputExhausted_iff.mp hx
      exact ⟨d, hf, hv⟩
    · obtain rfl := Exn.cause_eq_inputExhausted (congrArg Status.cause ht)
      exact absurd hf (fetchInstr_ne_inputExhausted s)
  · rintro ⟨d, hf, hv⟩
    rw [htaken d hf hv]; rfl

end Sys2Proof.Machine
end

section
/-! The encoding statements, decoder and table word (`30_encoding.md`). One equivalence says what the decoder reads off a
list of cells; both directions of the round trip are its two halves. A table word is the number whose digits in base `2^W`
are the cells, so cutting it up again gives the cells back, with zeros above them. -/

namespace Sys2Proof

/-! ### The decoder on a list of cells -/

/-- R53: the decoder returns what `decodeFrom` reads off the list, and the cells behind the instruction's length. -/
theorem decode_eq_ok {rom : Rom} {cells rest : List Nat} {i : Instr} : decode rom cells = .ok (i, rest) ↔
    decodeFrom rom (readCell cells) .unknownOpcode = .ok i ∧ cells.drop i.handler.length = rest := by
  unfold decode
  cases decodeFrom rom (readCell cells) .unknownOpcode with
  | error e => simp [bind, Except.bind]
  | ok j =>
    simp only [bind, Except.bind, pure, Except.pure, Except.ok.injEq, Prod.mk.injEq]
    exact and_congr_right fun hj => by rw [hj]

/-- R52: operand `k` stands behind the opcode cell at offset `k + 1`. -/
theorem operand_getElem? {i : Instr} {k v : Nat} (hv : i.operands[k]? = some v) (op : Nat) (rest : List Nat) :
    (op :: i.operands ++ rest)[k + 1]? = some v := by
  rw [List.cons_append, List.getElem?_cons_succ, List.getElem?_append_left (List.getElem?_eq_some_iff.mp hv).1, hv]

/-- R51, R52: the decoder answers `i` and `rest` exactly on an opcode cell of `i`'s handler, the operand cells of `i`, and
then `rest`. -/
theorem decode_ok {rom : Rom} {cells rest : List Nat} {i : Instr} : decode rom cells = .ok (i, rest) ↔
    ∃ op, rom.lookup op = some i.handler ∧ cells = op :: i.operands ++ rest := by
  simp only [decode_eq_ok, decodeFrom_ok, readCell_ok]
  constructor
  · rintro ⟨⟨op, h0, hl, hr⟩, rfl⟩
    have hprefix : op :: i.operands <+: cells := by
      refine List.prefix_iff_getElem?.mpr fun k hk => ?_
      cases k with
      | zero => exact h0
      | succ k => exact hr k _ (List.getElem?_eq_getElem (by simpa using hk))
    refine ⟨op, hl, ?_⟩
    obtain ⟨rest, rfl⟩ := hprefix
    rw [i.length_eq, ← List.length_cons (a := op), List.drop_left]
  · rintro ⟨op, hl, rfl⟩
    exact ⟨⟨op, rfl, hl, fun k v hv => operand_getElem? hv op rest⟩, by rw [i.length_eq]; exact List.drop_left⟩

/-- The encoder's cells are an opcode the ROM maps to the handler, and the operands (R49). -/
theorem encode_eq_some {rom : Rom} (hs : Table.sorted rom = true) {i : Instr} {cells : List Nat}
    (h : encode rom i = some cells) : ∃ op, rom.lookup op = some i.handler ∧ cells = op :: i.operands := by
  unfold encode at h
  split at h
  · rename_i op hop
    cases h
    exact ⟨op, Rom.lookup_of_opcodeOf hs hop, rfl⟩
  · cases h

/-- Settles O1: the encoder's cells are of the form that `decode_ok` asks for. -/
theorem encodedInstructionDecodesBack : Obligations.EncodedInstructionDecodesBack := by
  intro rom i cells rest hs henc
  obtain ⟨op, hl, rfl⟩ := encode_eq_some hs henc
  exact decode_ok.mpr ⟨op, hl, rfl⟩

/-- Settles O2: the forward half of `decode_ok`. -/
theorem decodedCellsAreOpcodeThenOperands : Obligations.DecodedCellsAreOpcodeThenOperands :=
  fun _ _ _ _ h => decode_ok.mp h

/-! ### Table words (log 12) -/

theorem cellOfBits_zero {W v : Nat} (hv : v < 2 ^ W) (b : Nat) : cellOfBits W (v + 2 ^ W * b) 0 = v := by
  simp [cellOfBits, Nat.mod_eq_of_lt hv]

theorem cellOfBits_succ {W v : Nat} (hv : v < 2 ^ W) (b k : Nat) :
    cellOfBits W (v + 2 ^ W * b) (k + 1) = cellOfBits W b k := by
  have hdiv : (v + 2 ^ W * b) / 2 ^ W = b := by
    rw [Nat.add_mul_div_left _ _ (Nat.two_pow_pos W), Nat.div_eq_of_lt hv, Nat.zero_add]
  rw [cellOfBits, cellOfBits, Nat.mul_succ, Nat.add_comm (W * k), Nat.pow_add, ← Nat.div_div_eq_div_mul, hdiv]

/-- Cutting up a packed list gives its cells, and 0 past its end. -/
theorem cellOfBits_bitsOfCells {W : Nat} {l : List Nat} (hl : ∀ v ∈ l, v < 2 ^ W) (k : Nat) :
    cellOfBits W (bitsOfCells W l) k = l[k]?.getD 0 := by
  induction l generalizing k with
  | nil => simp [bitsOfCells, cellOfBits]
  | cons v t ih =>
    have hv : v < 2 ^ W := hl v List.mem_cons_self
    cases k with
    | zero => exact cellOfBits_zero hv _
    | succ k =>
      rw [bitsOfCells, cellOfBits_succ hv, ih fun u hu => hl u (List.mem_cons_of_mem _ hu)]
      rfl

/-- A packed list of cells has `W` bits for each of them. -/
theorem bitsOfCells_lt {W : Nat} {l : List Nat} (hl : ∀ v ∈ l, v < 2 ^ W) :
    bitsOfCells W l < 2 ^ (W * l.length) := by
  induction l with
  | nil => simp [bitsOfCells]
  | cons v t ih =>
    have hv : v < 2 ^ W := hl v List.mem_cons_self
    have ht := ih fun u hu => hl u (List.mem_cons_of_mem _ hu)
    calc bitsOfCells W (v :: t) < 2 ^ W * 1 + 2 ^ W * bitsOfCells W t := by simpa [bitsOfCells] using hv
      _ = 2 ^ W * (bitsOfCells W t + 1) := by ring
      _ ≤ 2 ^ W * 2 ^ (W * t.length) := Nat.mul_le_mul_left _ ht
      _ = 2 ^ (W * (v :: t).length) := by rw [← Nat.pow_add, List.length_cons, Nat.mul_succ, Nat.add_comm]

/-- The four cells of the table word of at most four cells are these cells and then zeros. -/
theorem tableCells_bitsOfCells {W : Nat} {l : List Nat} (hl : ∀ v ∈ l, v < 2 ^ W) (hlen : l.length ≤ 4) :
    tableCells W (W * l.length) (bitsOfCells W l) = l ++ List.replicate (4 - l.length) 0 := by
  refine List.ext_getElem (by simp [tableCells]; omega) fun k _ _ => ?_
  simp only [tableCells, List.getElem_map, List.getElem_range, Nat.mod_eq_of_lt (bitsOfCells_lt hl),
    cellOfBits_bitsOfCells hl, List.getElem_append, List.getElem_replicate]
  split
  · rename_i hk; rw [List.getElem?_eq_getElem hk, Option.getD_some]
  · rename_i hk; rw [List.getElem?_eq_none (Nat.not_lt.mp hk), Option.getD_none]

/-- R49: an instruction is well formed exactly when each operand is one cell. -/
theorem Instr.wf_iff {W : Nat} {i : Instr} : i.wf W = true ↔ ∀ v ∈ i.operands, v < 2 ^ W := by
  cases i <;> simp [Instr.wf, Instr.operands, and_assoc]

/-- The default ROM has an opcode, of one cell, for every handler (R54). -/
theorem opcodeOf_default (h : Handler) : ∃ op, Rom.default.opcodeOf h = some op ∧ op < 2 ^ Params.default.width := by
  cases h
  · exact ⟨1, rfl, by decide⟩
  · exact ⟨2, rfl, by decide⟩
  · exact ⟨3, rfl, by decide⟩
  · exact ⟨4, rfl, by decide⟩
  · exact ⟨99, rfl, by decide⟩

/-- A table word decodes to what its four cells decode to. -/
theorem decodeTableWord_eq_some {nbits w : Nat} {i : Instr} : decodeTableWord nbits w = some i ↔
    ∃ rest, decode Rom.default (tableCells Params.default.width nbits w) = .ok (i, rest) := by
  unfold decodeTableWord
  cases decode Rom.default (tableCells Params.default.width nbits w) with
  | error e => simp
  | ok r => obtain ⟨j, rest⟩ := r; simp

/-- Settles O3: the word is the packed list of the opcode and the operands, which its four cells begin with. -/
theorem tableWordDecodesBack : Obligations.TableWordDecodesBack := by
  intro i hwf
  obtain ⟨op, hop, hlt⟩ := opcodeOf_default i.handler
  have hcells : ∀ v ∈ op :: i.operands, v < 2 ^ 64 := List.forall_mem_cons.mpr ⟨hlt, Instr.wf_iff.mp hwf⟩
  have hlen : i.handler.length = (op :: i.operands).length := i.length_eq
  have hfour : (op :: i.operands).length ≤ 4 := by cases i <;> simp [Instr.operands]
  refine ⟨bitsOfCells 64 (op :: i.operands), ?_, ?_, ?_⟩
  · simp only [encodeTableWord, encode, hop, Option.map_some]; rfl
  · rw [hlen]; exact bitsOfCells_lt hcells
  · refine decodeTableWord_eq_some.mpr ⟨List.replicate (4 - (op :: i.operands).length) 0, decode_ok.mpr
      ⟨op, Rom.lookup_of_opcodeOf (Rom.sorted_build _) hop, ?_⟩⟩
    rw [hlen]; exact tableCells_bitsOfCells hcells hfour

/-- Settles O4: each word is a closed number, which the decoder is run on. -/
theorem wordsWrittenFromTheFormatsDecode : Obligations.WordsWrittenFromTheFormatsDecode := by
  unfold Obligations.WordsWrittenFromTheFormatsDecode
  decide

/-! ### The opcode map (R54) -/

/-- R55: the pairs of the standard ROM, looked up from the last to the first. -/
theorem Rom.lookup_standard (inOp outOp op : Nat) : (Rom.standard inOp outOp).lookup op =
    if op = outOp then some .out else if op = inOp then some .inp else if op = 99 then some .halt
    else if op = 2 then some .mul else if op = 1 then some .add else none := by
  simp only [Rom.standard, Rom.build, List.foldl_cons, List.foldl_nil, Rom.lookup, Table.lookup_insert,
    Table.lookup_nil]

/-- Settles O5: the five opcodes differ, so the order in which the pairs are looked up is immaterial. -/
theorem opcodeMapOfTheDefaultRom : Obligations.OpcodeMapOfTheDefaultRom := by
  refine ⟨rfl, fun inOp outOp op hne hin hout => ?_, rfl, rfl, rfl, rfl, rfl⟩
  simp only [List.mem_cons, List.not_mem_nil, or_false, not_or] at hin hout
  rw [Rom.lookup_standard]
  grind

end Sys2Proof
end

section
/-! The rules of the step (`40_fetch_decode.md`), the converses of the inversion lemmas of the Laws: which fault the fetch
raises where, and that an instruction in the situation of a case of `Completed` or `Faults` answers as that case says. -/

namespace Sys2Proof.Machine

/-! ### The memory -/

theorem Memory.get?_set_same {m : Memory} {a : Nat} (h : a < m.size) (v : Nat) : (m.set a v).get? a = some v := by
  rw [Memory.get?_set h, if_pos rfl]

theorem Memory.get?_set_of_ne {m : Memory} {a b : Nat} (h : a < m.size) (v : Nat) (hb : b ≠ a) :
    (m.set a v).get? b = m.get? b := by
  rw [Memory.get?_set h, if_neg hb]

/-! ### The fetch -/

/-- R63: without an opcode cell the fetch is out of bounds at `pc`. -/
theorem fetchInstr_of_pc_out {s : State} (h : s.mem.get? s.pc = none) :
    fetchInstr s = .error (.outOfBounds s.pc) := by
  obtain ⟨-, hf⟩ | ⟨op, h0, -⟩ := fetchInstr_cases s
  · exact hf
  · rw [h] at h0; cases h0

/-- R62: an operand fetch is out of bounds at the first cell the memory does not have, whatever the cells before it hold. -/
theorem fetchInstr_of_operand_out {s : State} {op k : Nat} {h : Handler} (h0 : s.mem.get? s.pc = some op)
    (hl : s.params.rom.lookup op = some h) (hk : k < h.length) (hN : s.pc + k = s.mem.size) :
    fetchInstr s = .error (.outOfBounds (s.pc + k)) := by
  obtain ⟨hn, -⟩ | ⟨op', h0', hrest⟩ := fetchInstr_cases s
  · rw [h0] at hn; cases hn
  rw [h0] at h0'; cases h0'
  rw [hl] at hrest
  obtain ⟨hn, -⟩ | ⟨i, hi, -, hf⟩ | ⟨h', j, hh, -, hprev, hnext, hf⟩ := hrest
  · cases hn
  · cases hi
    have hend := fetchInstr_ok_end hf
    omega
  · have hlt : s.pc + j < s.mem.size := Nat.lt_of_not_le fun hle => hprev (Memory.get?_eq_none.mpr hle)
    have hle : s.mem.size ≤ s.pc + (j + 1) := Memory.get?_eq_none.mp hnext
    obtain rfl : k = j + 1 := by omega
    exact hf

/-- R50, R52: the operands of a fetched instruction are cells of the memory. -/
theorem operand_get? {s : State} {i : Instr} (hf : fetchInstr s = .ok i) {a : Nat} (ha : a ∈ i.operands) :
    ∃ c, s.mem.get? c = some a := by
  obtain ⟨-, -, -, hr⟩ := fetchInstr_ok.mp hf
  obtain ⟨k, hk⟩ := List.mem_iff_getElem?.mp ha
  exact ⟨_, hr k a hk⟩

/-- R61: cells that stand in memory from `pc` on are fetched as the instruction they decode to. -/
theorem fetchInstr_of_decode {s : State} {cells rest : List Nat} {i : Instr}
    (hm : ∀ k v, cells[k]? = some v → s.mem.get? (s.pc + k) = some v)
    (hd : decode s.params.rom cells = .ok (i, rest)) : fetchInstr s = .ok i := by
  obtain ⟨op, hl, rfl⟩ := decode_ok.mp hd
  exact fetchInstr_ok.mpr ⟨op, hm 0 op rfl, hl, fun k v hv => hm (k + 1) v (operand_getElem? hv op rest)⟩

/-! ### ADD and MUL, one rule per end (R74, R75, R78) -/

/-- R78: a result that fits or is wrapped passes the overflow test as its truncation. -/
theorem narrow_passes {p : Params} {r : Nat} (hf : r < 2 ^ p.width ∨ p.ovfMode = .wrap) :
    narrow p r = .ok (truncW p.width r) := by
  obtain ⟨h, -⟩ | ⟨-, hle, hm⟩ := narrow_cases p r
  · exact h
  · obtain hlt | hw := hf
    · omega
    · rw [hm] at hw; cases hw

section
variable {s : State} {a b d va vb : Nat} (f : Nat → Nat → Nat)

theorem arith_left_out (ha : s.mem.get? a = none) : arith f a b d s = .next (raise (.outOfBounds a) s) := by
  simp [arith, memRead_none ha]

theorem arith_right_out (ha : s.mem.get? a = some va) (hb : s.mem.get? b = none) :
    arith f a b d s = .next (raise (.outOfBounds b) s) := by
  simp [arith, memRead_some ha, memRead_none hb]

theorem arith_overflow (ha : s.mem.get? a = some va) (hb : s.mem.get? b = some vb)
    (hr : 2 ^ s.params.width ≤ f va vb) (hm : s.params.ovfMode = .fault) :
    arith f a b d s = .next (raise (.arithOverflow (truncW s.params.width (f va vb))) s) := by
  simp [arith, memRead_some ha, memRead_some hb, narrow_fault hr hm]

theorem arith_dest_out (ha : s.mem.get? a = some va) (hb : s.mem.get? b = some vb)
    (hf : f va vb < 2 ^ s.params.width ∨ s.params.ovfMode = .wrap) (hd : s.mem.size ≤ d) :
    arith f a b d s = .next (raise (.outOfBounds d) s) := by
  simp [arith, memRead_some ha, memRead_some hb, narrow_passes hf, memWrite_out hd]

theorem arith_done (ha : s.mem.get? a = some va) (hb : s.mem.get? b = some vb)
    (hf : f va vb < 2 ^ s.params.width ∨ s.params.ovfMode = .wrap) (hd : d < s.mem.size) :
    arith f a b d s =
      .next { s with mem := s.mem.set d (truncW s.params.width (f va vb)), pc := s.pc + 4 } := by
  simp [arith, memRead_some ha, memRead_some hb, narrow_passes hf, memWrite_in hd, continueAt]

end

/-! ### IN (R82) -/

theorem execInp_dest_out {s : State} {d v : Nat} (hv : s.input.get? s.params.width s.inPos = some v)
    (hd : s.mem.size ≤ d) : execInp d s = .next (raise (.outOfBounds d) { s with inPos := s.inPos + 1 }) := by
  rw [execInp, inPop_some hv, orRaise_ok, memWrite_out (s := { s with inPos := s.inPos + 1 }) hd, orRaise_error]

theorem execInp_done {s : State} {d v : Nat} (hv : s.input.get? s.params.width s.inPos = some v)
    (hd : d < s.mem.size) : execInp d s =
      .next { s with inPos := s.inPos + 1, mem := s.mem.set d v, pc := s.pc + 2 } := by
  rw [execInp, inPop_some hv, orRaise_ok, memWrite_in (s := { s with inPos := s.inPos + 1 }) hd, orRaise_ok]
  rfl

/-! ### OUT (R83) -/

theorem execOut_source_out {s : State} {a : Nat} (ha : s.mem.get? a = none) :
    execOut a s = .next (raise (.outOfBounds a) s) := by
  rw [execOut, memRead_none ha, orRaise_error]

theorem execOut_done {s : State} {a v : Nat} (hv : s.mem.get? a = some v) :
    execOut a s = .next { s with outLog := s.outLog ++ [v], pc := s.pc + 2 } := by
  rw [execOut, memRead_some hv, orRaise_ok]
  rfl

/-! ### Every case of `Completed` and `Faults` is what `exec` answers -/

theorem Completed.exec_eq {s t : State} {i : Instr} (h : Completed s i t) : exec i s = .next t := by
  cases h with
  | add a b d va vb ha hb hf hd => exact arith_done (fun x y => x + y) ha hb hf hd
  | mul a b d va vb ha hb hf hd => exact arith_done (fun x y => x * y) ha hb hf hd
  | inp d v hv hd => exact execInp_done hv hd
  | out a v hv => exact execOut_done hv

theorem Faults.exec_eq {s u : State} {i : Instr} {x : Exn} (h : Faults s i x u) : exec i s = .next (raise x u) := by
  cases h with
  | addLeft a b d ha => exact arith_left_out _ ha
  | addRight a b d va ha hb => exact arith_right_out _ ha hb
  | addOverflow a b d va vb ha hb hr hm => exact arith_overflow (fun x y => x + y) ha hb hr hm
  | addDest a b d va vb ha hb hf hd => exact arith_dest_out (fun x y => x + y) ha hb hf hd
  | mulLeft a b d ha => exact arith_left_out _ ha
  | mulRight a b d va ha hb => exact arith_right_out _ ha hb
  | mulOverflow a b d va vb ha hb hr hm => exact arith_overflow (fun x y => x * y) ha hb hr hm
  | mulDest a b d va vb ha hb hf hd => exact arith_dest_out (fun x y => x * y) ha hb hf hd
  | inpExhausted d hv => exact execInp_of_exhausted hv d
  | inpDest d v hv hd => exact execInp_dest_out hv hd
  | outSource a ha => exact execOut_source_out ha

/-- R84: HALT always halts the run. -/
theorem exec_halt (s : State) : exec .halt s = .next (haltRun s) := rfl

/-! ### The step, one case for each of its four ends (R61, R86) -/

/-- What a step of a Running machine did. -/
inductive Stepped (s : State) : State → Prop where
  | completed (i : Instr) (t : State) (hf : fetchInstr s = .ok i) (hc : Completed s i t) : Stepped s t
  | halted (hf : fetchInstr s = .ok .halt) : Stepped s (haltRun s)
  | faulted (i : Instr) (x : Exn) (u : State) (hf : fetchInstr s = .ok i) (hx : Faults s i x u) :
      Stepped s (raise x u)
  | fetchFaulted (x : Exn) (hf : fetchInstr s = .error x) : Stepped s (raise x s)

/-- A step answers exactly the states that one of the four ends leads to. -/
theorem step_eq_next {s t : State} : step s = .next t ↔ s.status.state = .running ∧ Stepped s t := by
  constructor
  · intro h
    have hrun := running_of_step h
    refine ⟨hrun, ?_⟩
    obtain ⟨i, u, hf, hc, he⟩ | ⟨hf, he⟩ | ⟨i, x, u, hf, hx, he⟩ | ⟨x, hf, he⟩ := step_cases hrun <;>
      rw [h] at he <;> cases he
    · exact .completed i t hf hc
    · exact .halted hf
    · exact .faulted i x u hf hx
    · exact .fetchFaulted x hf
  · rintro ⟨hrun, h⟩
    cases h with
    | completed i t hf hc => rw [step_of_fetchInstr_ok hrun hf, hc.exec_eq]
    | halted hf => rw [step_of_fetchInstr_ok hrun hf, exec_halt]
    | faulted i x u hf hx => rw [step_of_fetchInstr_ok hrun hf, hx.exec_eq]
    | fetchFaulted x hf => exact step_of_fetchInstr_error hrun hf

/-- A completed instruction leaves the machine Running. -/
theorem Completed.running {s t : State} {i : Instr} (h : Completed s i t) (hrun : s.status.state = .running) :
    t.status.state = .running := by
  obtain ⟨-, hst, -⟩ := h.frame
  rw [hst, hrun]

end Sys2Proof.Machine
end

section
/-! The statements about any step (`40_fetch_decode.md`, `60_exceptions.md`), each a case split over the four ends of a step
(`Stepped`). The lemmas before them say what the cases of `Completed` and `Faults` have in common. -/

namespace Sys2Proof.Machine

/-! ### What completed and faulting instructions have in common -/

/-- R36: a completed instruction names addresses below `N` only. -/
theorem Completed.operands_lt {s t : State} {i : Instr} (h : Completed s i t) : ∀ a ∈ i.operands, a < s.mem.size := by
  cases h with
  | add a b d va vb ha hb hf hd => simpa [Instr.operands] using ⟨Memory.get?_lt ha, Memory.get?_lt hb, hd⟩
  | mul a b d va vb ha hb hf hd => simpa [Instr.operands] using ⟨Memory.get?_lt ha, Memory.get?_lt hb, hd⟩
  | inp d v hv hd => simpa [Instr.operands] using hd
  | out a v hv => simpa [Instr.operands] using Memory.get?_lt hv

/-- R90: the address an instruction finds out of bounds is one of its operands, at or beyond `N`. -/
theorem Faults.outOfBounds_operand {s u : State} {i : Instr} {a : Nat} (h : Faults s i (.outOfBounds a) u) :
    a ∈ i.operands ∧ s.mem.size ≤ a := by
  cases h with
  | addLeft _ b d ha => exact ⟨by simp [Instr.operands], Memory.get?_eq_none.mp ha⟩
  | addRight a _ d va ha hb => exact ⟨by simp [Instr.operands], Memory.get?_eq_none.mp hb⟩
  | addDest a b _ va vb ha hb hf hd => exact ⟨by simp [Instr.operands], hd⟩
  | mulLeft _ b d ha => exact ⟨by simp [Instr.operands], Memory.get?_eq_none.mp ha⟩
  | mulRight a _ d va ha hb => exact ⟨by simp [Instr.operands], Memory.get?_eq_none.mp hb⟩
  | mulDest a b _ va vb ha hb hf hd => exact ⟨by simp [Instr.operands], hd⟩
  | inpDest _ v hv hd => exact ⟨by simp [Instr.operands], hd⟩
  | outSource _ ha => exact ⟨by simp [Instr.operands], Memory.get?_eq_none.mp ha⟩

/-- D11: only an IN that has popped and then finds its destination out of bounds faults in another state than it
started from. -/
theorem Faults.inPos {s u : State} {i : Instr} {x : Exn} (h : Faults s i x u) : u.inPos = s.inPos ∨
    ∃ d v, i = .inp d ∧ s.mem.size ≤ d ∧ s.input.get? s.params.width s.inPos = some v ∧ u.inPos = s.inPos + 1 := by
  cases h with
  | inpDest d v hv hd => exact .inr ⟨d, v, rfl, hd, hv, rfl⟩
  | _ => exact .inl rfl

/-- R91, R92, R90: what an instruction's fault records is true of the state it leaves. -/
theorem Faults.recordOk {s u : State} {i : Instr} {x : Exn} (h : Faults s i x u) : (raise x u).faultRecordOk := by
  obtain ⟨-, -, -, hmem, -, -, -⟩ := h.frame
  cases x with
  | malformedProgram op => exact absurd h Faults.ne_malformedProgram
  | outOfBounds a => exact (congrArg Memory.size hmem).le.trans h.outOfBounds_operand.2
  | inputExhausted =>
    obtain ⟨-, hv, rfl⟩ := Faults.inputExhausted_iff.mp h
    exact ⟨rfl, hv⟩
  | arithOverflow r => cases h <;> assumption

/-- R89, R90: what the fetch's fault records is true of the state it leaves. -/
theorem fetchInstr_recordOk {s : State} {x : Exn} (h : fetchInstr s = .error x) : (raise x s).faultRecordOk := by
  obtain ⟨hn, rfl⟩ | ⟨op, h0, hl, rfl⟩ | ⟨op, h', k, -, -, -, -, hn, rfl⟩ := fetchInstr_error h
  · exact Memory.get?_eq_none.mp hn
  · exact ⟨h0, hl⟩
  · exact Memory.get?_eq_none.mp hn

/-! ### Overflow (R92) -/

/-- The instruction is an ADD or MUL whose sources can be read, and `r` is its mathematical result (R76, R77). -/
inductive ArithResult (s : State) : Instr → Nat → Prop where
  | add (a b d va vb : Nat) (ha : s.mem.get? a = some va) (hb : s.mem.get? b = some vb) :
      ArithResult s (.add a b d) (va + vb)
  | mul (a b d va vb : Nat) (ha : s.mem.get? a = some va) (hb : s.mem.get? b = some vb) :
      ArithResult s (.mul a b d) (va * vb)

/-- R92: an instruction raises ArithOverflow exactly if, in mode fault, it has a result of `2^W` or more. -/
theorem Faults.arithOverflow_iff {s u : State} {i : Instr} {q : Nat} : Faults s i (.arithOverflow q) u ↔
    ∃ r, ArithResult s i r ∧ 2 ^ s.params.width ≤ r ∧ s.params.ovfMode = .fault ∧ q = truncW s.params.width r ∧
      u = s := by
  constructor
  · intro h
    cases h with
    | addOverflow a b d va vb ha hb hr hm => exact ⟨_, .add a b d va vb ha hb, hr, hm, rfl, rfl⟩
    | mulOverflow a b d va vb ha hb hr hm => exact ⟨_, .mul a b d va vb ha hb, hr, hm, rfl, rfl⟩
  · rintro ⟨r, hres, hr, hm, rfl, rfl⟩
    cases hres with
    | add a b d va vb ha hb => exact .addOverflow a b d va vb ha hb hr hm
    | mul a b d va vb ha hb => exact .mulOverflow a b d va vb ha hb hr hm

/-- R78, R92: in mode fault a result of `2^W` or more is a fault and nothing is written, whatever the destination. -/
theorem ArithResult.exec_overflow {s : State} {i : Instr} {r : Nat} (h : ArithResult s i r)
    (hr : 2 ^ s.params.width ≤ r) (hm : s.params.ovfMode = .fault) :
    exec i s = .next (raise (.arithOverflow (truncW s.params.width r)) s) :=
  (Faults.arithOverflow_iff.mpr ⟨r, h, hr, hm, rfl, rfl⟩).exec_eq

/-- R92: no fetch raises ArithOverflow, since it computes nothing. -/
theorem fetchInstr_ne_arithOverflow (s : State) (q : Nat) : fetchInstr s ≠ .error (.arithOverflow q) := by
  intro h
  obtain ⟨-, hx⟩ | ⟨_, -, -, hx⟩ | ⟨_, _, _, -, -, -, -, -, hx⟩ := fetchInstr_error h <;> cases hx

/-! ### The statements -/

/-- Settles O7: such cells are fetched as that instruction. -/
theorem stepRunsTheInstructionAtPc : Obligations.StepRunsTheInstructionAtPc :=
  fun _ _ _ _ hrun hm hd => step_of_fetchInstr_ok hrun (fetchInstr_of_decode hm hd)

/-- Settles O8: the fetch's fault is taken. -/
theorem opcodeFetchBeyondMemoryFaults : Obligations.OpcodeFetchBeyondMemoryFaults :=
  fun _ hrun hN => step_of_fetchInstr_error hrun (fetchInstr_of_pc_out (Memory.get?_eq_none.mpr hN))

/-- Settles O9: the fetch's fault is taken. -/
theorem operandFetchBeyondMemoryFaults : Obligations.OperandFetchBeyondMemoryFaults :=
  fun _ _ _ _ hrun h0 hl _ hk hN => step_of_fetchInstr_error hrun (fetchInstr_of_operand_out h0 hl hk hN)

/-- Settles O11: the step completed an instruction, or it was a HALT, which names no address. -/
theorem noStepSucceedsWithAnAccessOutOfBounds : Obligations.NoStepSucceedsWithAnAccessOutOfBounds := by
  intro s t _ hstep hok
  obtain ⟨-, hend⟩ := step_eq_next.mp hstep
  cases hend with
  | completed i t hf hc =>
    obtain ⟨-, -, -, hN, -⟩ := hc.frame
    exact ⟨hN, i, hf, fetchInstr_ok_end hf, hc.operands_lt⟩
  | halted hf => exact ⟨rfl, .halt, hf, fetchInstr_ok_end hf, by simp [Instr.operands]⟩
  | faulted i x u hf hx => exact absurd rfl hok
  | fetchFaulted x hf => exact absurd rfl hok

/-- Settles O12: the fault is the instruction's, on an operand, or the fetch's, on the opcode cell or an operand cell. -/
theorem outOfBoundsReportsAnAccessedAddress : Obligations.OutOfBoundsReportsAnAccessedAddress := by
  intro s t _ hstep ht
  obtain ⟨i, x, u, hf, hx, rfl⟩ | ⟨x, hf, rfl⟩ := step_faulted hstep (by rw [ht])
  · cases x with
    | outOfBounds a =>
      obtain ⟨hmem, hN⟩ := hx.outOfBounds_operand
      exact ⟨hN, .inr (.inr ⟨i, hf, hmem⟩)⟩
    | _ => cases ht
  · obtain ⟨hn, rfl⟩ | ⟨_, -, -, rfl⟩ | ⟨op, h, k, h0, hl, hk, -, hn, rfl⟩ := fetchInstr_error hf
    · exact ⟨Memory.get?_eq_none.mp hn, .inl rfl⟩
    · cases ht
    · refine ⟨Memory.get?_eq_none.mp hn, .inr (.inl ⟨op, h, h0, hl, ?_, ?_⟩)⟩ <;>
        simp only [raise_finfo, Exn.info] <;> omega

/-- Settles O14: a CAUSE of ArithOverflow comes from a fetched instruction, and of these only from an ADD or MUL with such
a result. -/
theorem arithOverflowExactlyOnAResultTooLarge : Obligations.ArithOverflowExactlyOnAResultTooLarge := by
  intro s t hrun hstep
  have htaken : ∀ i r, fetchInstr s = .ok i → ArithResult s i r → 2 ^ s.params.width ≤ r →
      s.params.ovfMode = .fault → t = raise (.arithOverflow (truncW s.params.width r)) s := by
    intro i r hf hres hr hm
    have he := (step_of_fetchInstr_ok hrun hf).trans (hres.exec_overflow hr hm)
    rw [hstep] at he; cases he; rfl
  refine ⟨⟨fun ht => ?_, ?_⟩, ?_⟩
  · obtain ⟨i, x, u, hf, hx, rfl⟩ | ⟨x, hf, rfl⟩ := step_faulted hstep (by rw [ht])
    · cases x with
      | arithOverflow q =>
        obtain ⟨r, hres, hr, hm, -, -⟩ := Faults.arithOverflow_iff.mp hx
        cases hres with
        | add a b d va vb ha hb => exact ⟨hm, a, b, d, va, vb, ha, hb, .inl ⟨hf, hr⟩⟩
        | mul a b d va vb ha hb => exact ⟨hm, a, b, d, va, vb, ha, hb, .inr ⟨hf, hr⟩⟩
      | _ => cases ht
    · cases x with
      | arithOverflow q => exact absurd hf (fetchInstr_ne_arithOverflow s q)
      | _ => cases ht
  · rintro ⟨hm, a, b, d, va, vb, ha, hb, ⟨hf, hr⟩ | ⟨hf, hr⟩⟩
    · rw [htaken _ _ hf (.add a b d va vb ha hb) hr hm]; rfl
    · rw [htaken _ _ hf (.mul a b d va vb ha hb) hr hm]; rfl
  · rintro a b d va vb r ha hb (⟨hf, rfl⟩ | ⟨hf, rfl⟩) hr hm
    · exact htaken _ _ hf (.add a b d va vb ha hb) hr hm
    · exact htaken _ _ hf (.mul a b d va vb ha hb) hr hm

/-- Settles O15: taking the fault writes STATUS and FINFO, and up to it nothing but `IN_POS` has changed. -/
theorem faultHoldsPcAndMemory : Obligations.FaultHoldsPcAndMemory := by
  intro s t _ hstep ht
  have hstop : ∃ r, step t = .fault r := step_ended (by rw [ht]; exact nofun)
  obtain ⟨i, x, u, hf, hx, rfl⟩ | ⟨x, hf, rfl⟩ := step_faulted hstep ht
  · obtain ⟨hpc, -, -, hmem, hlog, hparams, hinput⟩ := hx.frame
    refine ⟨hpc, hmem, hlog, hparams, hinput, hx.recordOk, ⟨x, rfl, rfl⟩, ?_, hstop⟩
    obtain hpos | ⟨d, v, rfl, hd, hv, hpos⟩ := hx.inPos
    · exact .inl hpos
    · exact .inr ⟨d, v, hf, hd, hv, hpos⟩
  · exact ⟨rfl, rfl, rfl, rfl, rfl, fetchInstr_recordOk hf, ⟨x, rfl, rfl⟩, .inl rfl, hstop⟩

/-- Settles O16: the rows of R86 are the ends of a step, the completed one split by the instruction's length. -/
theorem programCounterAfterAStep : Obligations.ProgramCounterAfterAStep := by
  intro s t hrun hstep
  obtain ⟨-, hend⟩ := step_eq_next.mp hstep
  cases hend with
  | completed i t hf hc =>
    have hgo := hc.running hrun
    cases hc with
    | add a b d _ _ _ _ _ _ => exact .inl ⟨⟨a, b, d, .inl hf⟩, rfl, hgo⟩
    | mul a b d _ _ _ _ _ _ => exact .inl ⟨⟨a, b, d, .inr hf⟩, rfl, hgo⟩
    | inp d _ _ _ => exact .inr (.inl ⟨⟨d, .inl hf⟩, rfl, hgo⟩)
    | out a _ _ => exact .inr (.inl ⟨⟨a, .inr hf⟩, rfl, hgo⟩)
  | halted hf => exact .inr (.inr (.inl ⟨hf, rfl, rfl⟩))
  | faulted i x u hf hx =>
    obtain ⟨hpc, -⟩ := hx.frame
    refine .inr (.inr (.inr ⟨?_, hpc, rfl⟩))
    rw [hf]; rintro ⟨⟩; cases hx
  | fetchFaulted x hf => exact .inr (.inr (.inr ⟨by rw [hf]; exact nofun, rfl, rfl⟩))

/-- R9, R10: an address up to `N` is below the sentinel. -/
theorem lt_haltPc {p : Params} {N a : Nat} (hW : 8 ≤ p.width) (hN : N ≤ 2 ^ p.width - 2) (ha : a ≤ N) :
    a < p.haltPc := by
  have hpow : 2 ^ 8 ≤ 2 ^ p.width := Nat.pow_le_pow_right (by decide) hW
  rw [Params.haltPc]
  omega

/-- R66: a completed instruction leaves `pc` at most `N`, since its own cells lie below `N`. -/
theorem Completed.pc_le {s t : State} {i : Instr} (h : Completed s i t) (hf : fetchInstr s = .ok i) :
    t.pc ≤ t.mem.size := by
  obtain ⟨hpc, -, -, hN, -⟩ := h.frame
  rw [hpc, hN]
  exact fetchInstr_ok_end hf

/-- Settles O17: a step that goes on completed an instruction. -/
theorem noCursorReachesTheSentinel : Obligations.NoCursorReachesTheSentinel := by
  intro s t hW hN hstep hgo
  obtain ⟨-, hend⟩ := step_eq_next.mp hstep
  cases hend with
  | completed i t hf hc =>
    obtain ⟨-, -, -, hsize, hparams, -⟩ := hc.frame
    rw [← hparams] at hW hN
    rw [← hsize] at hN
    exact ⟨hc.pc_le hf, hN, lt_haltPc hW hN (hc.pc_le hf)⟩
  | halted hf => cases hgo
  | faulted i x u hf hx => cases hgo
  | fetchFaulted x hf => cases hgo

end Sys2Proof.Machine
end

section
/-! The instruction statements (`41_arithmetic.md`, `42_io.md`, `43_control.md`). ADD and MUL differ in one function
`Nat → Nat → Nat`, so what is said of both is proved once, for `arith` with any function. -/

namespace Sys2Proof.Machine

/-! ### ADD and MUL, whole -/

/-- What a step of a Running machine answers at an opcode whose handler has three operands and the meaning `arith f`:
the rule of R74 and R75 with `f` for the operation. -/
def arithRule (f : Nat → Nat → Nat) (s : State) : Outcome :=
  match s.mem.get? (s.pc + 1), s.mem.get? (s.pc + 2), s.mem.get? (s.pc + 3) with
  | none, _, _ => .next (raise (.outOfBounds (s.pc + 1)) s)
  | some _, none, _ => .next (raise (.outOfBounds (s.pc + 2)) s)
  | some _, some _, none => .next (raise (.outOfBounds (s.pc + 3)) s)
  | some a, some b, some d =>
    match s.mem.get? a, s.mem.get? b with
    | none, _ => .next (raise (.outOfBounds a) s)
    | some _, none => .next (raise (.outOfBounds b) s)
    | some va, some vb =>
      if 2 ^ s.params.width ≤ f va vb ∧ s.params.ovfMode = .fault then
        .next (raise (.arithOverflow (truncW s.params.width (f va vb))) s)
      else if d < s.mem.size then
        .next { s with mem := s.mem.set d (truncW s.params.width (f va vb)), pc := s.pc + 4 }
      else .next (raise (.outOfBounds d) s)

/-- A step takes the fault of the first operand cell that the memory does not have (R62, R93). -/
theorem step_of_operand_out {s : State} {op k : Nat} {h : Handler} (hrun : s.status.state = .running)
    (h0 : s.mem.get? s.pc = some op) (hl : s.params.rom.lookup op = some h) (hk : k < h.length)
    (hin : s.pc + k ≤ s.mem.size) (hout : s.mem.get? (s.pc + k) = none) :
    step s = .next (raise (.outOfBounds (s.pc + k)) s) :=
  step_of_fetchInstr_error hrun
    (fetchInstr_of_operand_out h0 hl hk (Nat.le_antisymm hin (Memory.get?_eq_none.mp hout)))

/-- R78: a result that is not a fault fits or is wrapped. -/
theorem passes_of_not_overflow {p : Params} {r : Nat} (h : ¬ (2 ^ p.width ≤ r ∧ p.ovfMode = .fault)) :
    r < 2 ^ p.width ∨ p.ovfMode = .wrap := by
  cases hm : p.ovfMode with
  | fault => exact .inl (Nat.lt_of_not_le fun hle => h ⟨hle, hm⟩)
  | wrap => exact .inr rfl

/-- R74, R75: the step follows the rule, for either instruction `mk`. -/
theorem step_eq_arithRule {f : Nat → Nat → Nat} {mk : Nat → Nat → Nat → Instr} {h : Handler}
    (hh : ∀ a b d, (mk a b d).handler = h) (hops : ∀ a b d, (mk a b d).operands = [a, b, d])
    (hexec : ∀ a b d s, exec (mk a b d) s = arith f a b d s) {s : State} {op : Nat}
    (hrun : s.status.state = .running) (h0 : s.mem.get? s.pc = some op) (hl : s.params.rom.lookup op = some h) :
    step s = arithRule f s := by
  have hlen : h.length = 4 := by rw [← hh 0 0 0, Instr.length_eq, hops]; rfl
  unfold arithRule
  cases h1 : s.mem.get? (s.pc + 1) with
  | none => exact step_of_operand_out hrun h0 hl (by omega) (Memory.get?_lt h0) h1
  | some a =>
  cases h2 : s.mem.get? (s.pc + 2) with
  | none => exact step_of_operand_out hrun h0 hl (by omega) (Memory.get?_lt h1) h2
  | some b =>
  cases h3 : s.mem.get? (s.pc + 3) with
  | none => exact step_of_operand_out hrun h0 hl (by omega) (Memory.get?_lt h2) h3
  | some d =>
  have hf : fetchInstr s = .ok (mk a b d) := by
    refine fetchInstr_ok.mpr ⟨op, h0, by rw [hl, hh], fun k v hv => ?_⟩
    rw [hops] at hv
    match k, hv with
    | 0, hv => rw [h1]; exact hv
    | 1, hv => rw [h2]; exact hv
    | 2, hv => rw [h3]; exact hv
  rw [step_of_fetchInstr_ok hrun hf, hexec]
  dsimp only
  cases ha : s.mem.get? a with
  | none => exact arith_left_out f ha
  | some va =>
  cases hb : s.mem.get? b with
  | none => exact arith_right_out f ha hb
  | some vb =>
  dsimp only
  split_ifs with hover hd
  · exact arith_overflow f ha hb hover.1 hover.2
  · exact arith_done f ha hb (passes_of_not_overflow hover) hd
  · exact arith_dest_out f ha hb (passes_of_not_overflow hover) (Nat.not_lt.mp hd)

/-- Settles O18: the shared rule, with the sum. -/
theorem addFollowsItsRule : Obligations.AddFollowsItsRule :=
  ⟨rfl, fun _ _ hrun h0 hl => step_eq_arithRule (mk := .add) (fun _ _ _ => rfl) (fun _ _ _ => rfl)
    (fun _ _ _ _ => rfl) hrun h0 hl⟩

/-- Settles O19: the shared rule, with the product. -/
theorem mulFollowsItsRule : Obligations.MulFollowsItsRule :=
  ⟨rfl, fun _ _ hrun h0 hl => step_eq_arithRule (mk := .mul) (fun _ _ _ => rfl) (fun _ _ _ => rfl)
    (fun _ _ _ _ => rfl) hrun h0 hl⟩

/-! ### IN, OUT and HALT, whole -/

/-- R62: an instruction with one operand is fetched from its opcode cell and the cell after it. -/
theorem fetchInstr_of_one_operand {s : State} {op a : Nat} {i : Instr} (h0 : s.mem.get? s.pc = some op)
    (hl : s.params.rom.lookup op = some i.handler) (hops : i.operands = [a]) (h1 : s.mem.get? (s.pc + 1) = some a) :
    fetchInstr s = .ok i := by
  refine fetchInstr_ok.mpr ⟨op, h0, hl, fun k v hv => ?_⟩
  rw [hops] at hv
  match k, hv with
  | 0, hv => rw [h1]; exact hv

/-- Settles O20: the operand fetch, then the three ends of `execInp`. -/
theorem inFollowsItsRule : Obligations.InFollowsItsRule := by
  refine ⟨rfl, fun s op hrun h0 hl => ?_⟩
  cases h1 : s.mem.get? (s.pc + 1) with
  | none => exact step_of_operand_out hrun h0 hl (by decide) (Memory.get?_lt h0) h1
  | some d =>
  have hstep : step s = execInp d s :=
    step_of_fetchInstr_ok hrun (fetchInstr_of_one_operand (i := .inp d) h0 hl rfl h1)
  rw [hstep]
  dsimp only
  cases hv : s.input.get? s.params.width s.inPos with
  | none => exact execInp_of_exhausted hv d
  | some v =>
  dsimp only
  split_ifs with hd
  · exact execInp_done hv hd
  · exact execInp_dest_out hv (Nat.not_lt.mp hd)

/-- Settles O21: the operand fetch, then the two ends of `execOut`. -/
theorem outFollowsItsRule : Obligations.OutFollowsItsRule := by
  refine ⟨rfl, fun s op hrun h0 hl => ?_⟩
  cases h1 : s.mem.get? (s.pc + 1) with
  | none => exact step_of_operand_out hrun h0 hl (by decide) (Memory.get?_lt h0) h1
  | some a =>
  have hstep : step s = execOut a s :=
    step_of_fetchInstr_ok hrun (fetchInstr_of_one_operand (i := .out a) h0 hl rfl h1)
  rw [hstep]
  dsimp only
  cases ha : s.mem.get? a with
  | none => exact execOut_source_out ha
  | some v => exact execOut_done ha

/-- R62, R84: the opcode cell is all of a HALT. -/
theorem fetchInstr_of_halt {s : State} {op : Nat} (h0 : s.mem.get? s.pc = some op)
    (hl : s.params.rom.lookup op = some .halt) : fetchInstr s = .ok .halt :=
  fetchInstr_ok.mpr ⟨op, h0, hl, nofun⟩

/-- R84: a step at a HALT halts the run. -/
theorem step_of_halt {s : State} {op : Nat} (hrun : s.status.state = .running) (h0 : s.mem.get? s.pc = some op)
    (hl : s.params.rom.lookup op = some .halt) : step s = .next (haltRun s) :=
  step_of_fetchInstr_ok hrun (fetchInstr_of_halt h0 hl)

/-- Settles O22: the fetch needs the opcode cell alone, and the halted machine takes no step. -/
theorem haltFollowsItsRule : Obligations.HaltFollowsItsRule :=
  ⟨rfl, fun s _ hrun h0 hl => ⟨haltRun s, step_of_halt hrun h0 hl, rfl, rfl⟩⟩

/-! ### Completion -/

/-- R78: the truncation of a result that fits is the result. -/
theorem truncW_eq_ite (W r : Nat) : truncW W r = if r < 2 ^ W then r else r % 2 ^ W := by
  split_ifs with h
  · exact Nat.mod_eq_of_lt h
  · rfl

/-- R74, R75: with readable sources, a destination below `N` and a result that fits or is wrapped, the result stands in
the destination and nothing else but `pc` has changed. -/
theorem arith_completes (f : Nat → Nat → Nat) {s : State} {a b d va vb : Nat} (ha : s.mem.get? a = some va)
    (hb : s.mem.get? b = some vb) (hd : d < s.mem.size)
    (hf : f va vb < 2 ^ s.params.width ∨ s.params.ovfMode = .wrap) :
    ∃ t, arith f a b d s = .next t ∧
      t.mem.get? d = some (if f va vb < 2 ^ s.params.width then f va vb else f va vb % 2 ^ s.params.width) ∧
      (∀ x, x ≠ d → t.mem.get? x = s.mem.get? x) ∧ t.pc = s.pc + 4 ∧ t.status = s.status ∧ t.finfo = s.finfo ∧
      t.inPos = s.inPos ∧ t.outLog = s.outLog ∧ t.params = s.params ∧ t.input = s.input := by
  rw [← truncW_eq_ite]
  exact ⟨_, arith_done f ha hb hf hd, Memory.get?_set_same hd _, fun _ hx => Memory.get?_set_of_ne hd _ hx,
    rfl, rfl, rfl, rfl, rfl, rfl, rfl⟩

/-- Settles O23: `arith_completes` for the sum. -/
theorem addCompletes : Obligations.AddCompletes :=
  fun _ _ _ _ _ _ _ ha hb hd hf => arith_completes (fun x y => x + y) ha hb hd hf

/-- Settles O24: `arith_completes` for the product. -/
theorem mulCompletes : Obligations.MulCompletes :=
  fun _ _ _ _ _ _ _ ha hb hd hf => arith_completes (fun x y => x * y) ha hb hd hf

/-- Settles O25: the state `execInp_done` answers. -/
theorem inCompletes : Obligations.InCompletes := by
  intro s d v _ hv hd
  exact ⟨_, execInp_done hv hd, Memory.get?_set_same hd v, fun _ hx => Memory.get?_set_of_ne hd v hx,
    rfl, rfl, rfl, rfl, rfl, rfl, rfl⟩

/-- Settles O26: the states `execOut_done` and `exec_halt` answer. -/
theorem outAndHaltComplete : Obligations.OutAndHaltComplete :=
  ⟨fun _ _ _ _ hv => execOut_done hv, fun s _ => exec_halt s⟩

/-! ### Frames -/

/-- R68, R66: ADD and MUL take a fault in the state they started from, or write the destination and advance. -/
theorem arith_next {f : Nat → Nat → Nat} {s t : State} {a b d : Nat} (h : arith f a b d s = .next t) :
    (∃ x, t = raise x s) ∨ d < s.mem.size ∧ ∃ r, t = { s with mem := s.mem.set d r, pc := s.pc + 4 } := by
  obtain ⟨-, he⟩ | ⟨va, -, ⟨-, he⟩ | ⟨vb, -, ⟨-, -, he⟩ | ⟨-, ⟨-, he⟩ | ⟨hd, he⟩⟩⟩⟩ := arith_cases f a b d s <;>
    rw [h] at he <;> cases he
  · exact .inl ⟨_, rfl⟩
  · exact .inl ⟨_, rfl⟩
  · exact .inl ⟨_, rfl⟩
  · exact .inl ⟨_, rfl⟩
  · exact .inr ⟨hd, _, rfl⟩

/-- What `arith` leaves unchanged, whichever way it ends. -/
theorem arith_frame {f : Nat → Nat → Nat} {s t : State} {a b d : Nat} (h : arith f a b d s = .next t) :
    t.params = s.params ∧ t.input = s.input ∧ t.mem.size = s.mem.size ∧ t.inPos = s.inPos ∧ t.outLog = s.outLog ∧
    (∀ x, x ≠ d → t.mem.get? x = s.mem.get? x) ∧
    ((t.status = s.status ∧ t.finfo = s.finfo) ∨ (t.status.state = .faulted ∧ t.pc = s.pc ∧ t.mem = s.mem)) := by
  obtain ⟨x, rfl⟩ | ⟨hd, r, rfl⟩ := arith_next h
  · exact ⟨rfl, rfl, rfl, rfl, rfl, fun _ _ => rfl, .inr ⟨rfl, rfl, rfl⟩⟩
  · exact ⟨rfl, rfl, rfl, rfl, rfl, fun _ hx => Memory.get?_set_of_ne hd r hx, .inl ⟨rfl, rfl⟩⟩

/-- Settles O27: `arith_frame` for either instruction. -/
theorem arithmeticFrame : Obligations.ArithmeticFrame := by
  rintro s t a b d (h | h)
  · exact arith_frame h
  · exact arith_frame h

/-- Settles O28: the three ends of IN. -/
theorem inFrame : Obligations.InFrame := by
  intro s t d h
  replace h : execInp d s = .next t := h
  obtain ⟨-, he⟩ | ⟨v, -, ⟨-, he⟩ | ⟨hd, he⟩⟩ := execInp_cases d s <;> rw [h] at he <;> cases he
  · exact ⟨rfl, rfl, rfl, rfl, .inl rfl, fun _ _ => rfl, .inr ⟨rfl, rfl, rfl⟩⟩
  · exact ⟨rfl, rfl, rfl, rfl, .inr rfl, fun _ _ => rfl, .inr ⟨rfl, rfl, rfl⟩⟩
  · exact ⟨rfl, rfl, rfl, rfl, .inr rfl, fun _ hx => Memory.get?_set_of_ne hd v hx, .inl ⟨rfl, rfl⟩⟩

/-- Settles O29: the two ends of OUT and the one of HALT. -/
theorem outAndHaltFrame : Obligations.OutAndHaltFrame := by
  constructor
  · intro s t a h
    replace h : execOut a s = .next t := h
    obtain ⟨-, he⟩ | ⟨v, -, he⟩ := execOut_cases a s <;> rw [h] at he <;> cases he
    · exact ⟨rfl, rfl, rfl, rfl, .inr ⟨rfl, rfl, rfl⟩⟩
    · exact ⟨rfl, rfl, rfl, rfl, .inl ⟨rfl, rfl, v, rfl⟩⟩
  · intro s t h
    rw [exec_halt] at h; cases h
    exact ⟨rfl, rfl, rfl, rfl, rfl, rfl, rfl⟩

/-! ### Overflow, commutation and the order of the source reads -/

/-- R78: in mode wrap a result of `2^W` or more is reduced and written. -/
theorem exec_of_wrap {s : State} {a b d va vb r : Nat} {i : Instr} (ha : s.mem.get? a = some va)
    (hb : s.mem.get? b = some vb) (hi : (i = .add a b d ∧ r = va + vb) ∨ (i = .mul a b d ∧ r = va * vb))
    (hm : s.params.ovfMode = .wrap) (hd : d < s.mem.size) :
    exec i s = .next { s with mem := s.mem.set d (truncW s.params.width r), pc := s.pc + 4 } := by
  obtain ⟨rfl, rfl⟩ | ⟨rfl, rfl⟩ := hi
  · exact (Completed.add a b d va vb ha hb (.inr hm) hd).exec_eq
  · exact (Completed.mul a b d va vb ha hb (.inr hm) hd).exec_eq

/-- Settles O30: the one rule for mode fault, the other for mode wrap. -/
theorem overflowFollowsTheMode : Obligations.OverflowFollowsTheMode := by
  intro s a b d va vb r i _ ha hb hi hr
  constructor
  · intro hm
    have hres : ArithResult s i r := by
      obtain ⟨rfl, rfl⟩ | ⟨rfl, rfl⟩ := hi
      · exact .add a b d va vb ha hb
      · exact .mul a b d va vb ha hb
    exact hres.exec_overflow hr hm
  · intro hm hd
    exact ⟨_, exec_of_wrap ha hb hi hm hd, Memory.get?_set_same hd _, rfl, rfl⟩

/-- R76, R77: the sources of a commutative operation can be swapped where both can be read. -/
theorem arith_comm {f : Nat → Nat → Nat} (hf : ∀ x y, f x y = f y x) {s : State} {a b : Nat} (ha : a < s.mem.size)
    (hb : b < s.mem.size) (d : Nat) : arith f a b d s = arith f b a d s := by
  obtain ⟨va, hva⟩ := Memory.get?_isSome ha
  obtain ⟨vb, hvb⟩ := Memory.get?_isSome hb
  simp only [arith, memRead_some hva, memRead_some hvb, orRaise_ok, hf va vb]

/-- Settles O31: both operations commute. -/
theorem swappingSourcesChangesNothing : Obligations.SwappingSourcesChangesNothing :=
  fun _ _ _ d ha hb => ⟨arith_comm Nat.add_comm ha hb d, arith_comm Nat.mul_comm ha hb d⟩

/-- Settles O32: for either instruction these are the first two cases of `Faults`. -/
theorem leftSourceIsReportedFirst : Obligations.LeftSourceIsReportedFirst := by
  rintro s a b d i _ (rfl | rfl)
  · refine ⟨fun ha => (Faults.addLeft a b d (Memory.get?_eq_none.mpr ha)).exec_eq, fun ha hb => ?_⟩
    obtain ⟨va, hva⟩ := Memory.get?_isSome ha
    exact (Faults.addRight a b d va hva (Memory.get?_eq_none.mpr hb)).exec_eq
  · refine ⟨fun ha => (Faults.mulLeft a b d (Memory.get?_eq_none.mpr ha)).exec_eq, fun ha hb => ?_⟩
    obtain ⟨va, hva⟩ := Memory.get?_isSome ha
    exact (Faults.mulRight a b d va hva (Memory.get?_eq_none.mpr hb)).exec_eq

end Sys2Proof.Machine
end

section
/-! The primitives, STATUS and the reset (`40_fetch_decode.md`, `42_io.md`, `10_state.md`, `70_reset_and_hazards.md`), and
the placement of a table word at the fetch (log 12). -/

namespace Sys2Proof.Machine

/-! ### The primitives -/

/-- Settles O35: a cursor that can be read is below `N`. -/
theorem fetchOneReadsAndAdvances : Obligations.FetchOneReadsAndAdvances := by
  refine fun s c hN => ⟨fun v hv => ⟨fetchOne_some hv, ?_⟩, fetchOne_none⟩
  have hc := Memory.get?_lt hv
  omega

/-- R80: an infinite INPUT has a value at every index, the listed one where one is listed. -/
theorem get?_infinite (first : List Nat) (source width k : Nat) :
    ∃ v, (Input.infinite first source).get? width k = some v ∧ ∀ u, first[k]? = some u → v = u := by
  simp only [Input.get?]
  cases h : first[k]? with
  | none => exact ⟨_, rfl, nofun⟩
  | some v => exact ⟨v, rfl, fun u hu => Option.some.inj hu⟩

/-- Settles O36: `inPop` answers what `Input.get?` gives at `IN_POS`. -/
theorem inPopTakesTheNextValue : Obligations.InPopTakesTheNextValue := by
  refine fun s => ⟨fun values v hin hv => inPop_some ?_, fun values hin hlen => inPop_none ?_,
    fun first source hin => ?_⟩
  · rw [hin]; exact hv
  · rw [hin]; exact List.getElem?_eq_none hlen
  · obtain ⟨v, hv, hlisted⟩ := get?_infinite first source s.params.width s.inPos
    exact ⟨v, inPop_some (by rw [hin]; exact hv), hlisted⟩

/-! ### STATUS -/

/-- Settles O37: `raise` is that update, and the codes and data are read off their tables. -/
theorem faultEntryWritesStatusAndFinfo : Obligations.FaultEntryWritesStatusAndFinfo :=
  fun _ _ => ⟨rfl, rfl, fun _ => ⟨rfl, rfl⟩, fun _ => ⟨rfl, rfl⟩, ⟨rfl, rfl⟩, fun _ => ⟨rfl, rfl⟩⟩

/-- R19: the STATE code 3 is never produced. -/
theorem RunState.code_ne_three (r : RunState) : r.code ≠ 3 := by cases r <;> decide

/-- R87: the CAUSE codes 6 and 7 are never produced. -/
theorem Cause.code_unused (c : Cause) : c.code ≠ 6 ∧ c.code ≠ 7 := by cases c <;> decide

/-- Settles O38: the packed form is the two codes, one after the other. -/
theorem statusPacksStateAndCause : Obligations.StatusPacksStateAndCause :=
  fun st => ⟨BitVec.extractLsb'_append_eq_right, BitVec.extractLsb'_append_eq_left, st.state.code_ne_three,
    st.cause.code_unused⟩

/-! ### Reset -/

/-- Settles O39: the items are those of `launch`, and the memory reads as the image. -/
theorem resetLeavesEveryItemAtItsValue : Obligations.ResetLeavesEveryItemAtItsValue :=
  fun _ image _ => ⟨rfl, Memory.ofImage_get? image, rfl, rfl, rfl, rfl, rfl, rfl, rfl⟩

/-- Settles O40: after a launch the image stands in memory from `pc` on; the empty image has no cell there. -/
theorem firstStepFetchesAtAddressZero : Obligations.FirstStepFetchesAtAddressZero := by
  constructor
  · intro p image rest inp i hd
    refine step_of_fetchInstr_ok rfl (fetchInstr_of_decode (fun k v hv => ?_) hd)
    rw [launch_mem, Memory.ofImage_get?, launch_pc, Nat.zero_add, hv]
  · intro p inp
    exact step_of_fetchInstr_error rfl (fetchInstr_of_pc_out rfl)

/-! ### A table word at the fetch (log 12) -/

/-- `readyToFetch` answers a Running machine under the same configuration. -/
theorem readyToFetch_running (s : State) :
    (readyToFetch s).status.state = .running ∧ (readyToFetch s).toRunConfig = s.toRunConfig := by
  unfold readyToFetch
  split
  · rename_i h; exact ⟨h.1, rfl⟩
  · exact ⟨rfl, rfl⟩

/-- The state with a table word placed is Running, has the ROM of the state before, and reads the word's cells from `pc`
on. -/
theorem loadAtFetch_ready (s : State) (nbits w : Nat) :
    (loadAtFetch s nbits w).status.state = .running ∧ (loadAtFetch s nbits w).params = s.params ∧
    ∀ k v, (tableCells s.params.width nbits w)[k]? = some v →
      (loadAtFetch s nbits w).mem.get? ((loadAtFetch s nbits w).pc + k) = some v := by
  obtain ⟨hrun, hconfig⟩ := readyToFetch_running s
  exact ⟨hrun, congrArg RunConfig.params hconfig, fun k v hv => Memory.place_get? hv⟩

/-- Settles O43: the placed cells are fetched as the instruction that they decode to. -/
theorem placedTableWordRunsNext : Obligations.PlacedTableWordRunsNext := by
  intro s nbits w i hp hw
  obtain ⟨rest, hd⟩ := decodeTableWord_eq_some.mp hw
  obtain ⟨hrun, hparams, hcells⟩ := loadAtFetch_ready s nbits w
  rw [hp] at hparams hcells
  rw [State.withFetchWord]
  exact step_of_fetchInstr_ok hrun (fetchInstr_of_decode hcells (by rw [hparams]; exact hd))

end Sys2Proof.Machine
end

section
/-! The invariant (`10_state.md` sections 3 to 6). It holds after every launch; a completed instruction, a halt and a taken
fault each keep it; so steps, runs and host actions do. -/

namespace Sys2Proof.Machine

/-! ### The invariant at launch -/

/-- Settles O42: the premises of a launch are the invariant's bounds on the configuration and the image. -/
theorem launchMeetsTheInvariant : Obligations.LaunchMeetsTheInvariant := by
  intro p image inp h
  simp only [launchOk, Bool.and_eq_true, decide_eq_true_eq, List.all_eq_true] at h
  obtain ⟨⟨⟨hp, hN⟩, himage⟩, hinp⟩ := h
  exact {
    params := hp
    input := hinp
    mem := Memory.ofImage_wf hN himage
    finfo := Nat.two_pow_pos _
    outLog := nofun
    inPos := by
      unfold State.inPosOk
      split
      · exact Nat.zero_le _
      · trivial
    pc := Nat.zero_le _
    status := ⟨rfl, rfl⟩ }

/-- Settles O41: reset is a launch with admitted arguments. -/
theorem resetMeetsTheInvariant : Obligations.ResetMeetsTheInvariant :=
  launchMeetsTheInvariant Params.default [] (.finite []) (by decide)

/-- R24: a pop leaves `IN_POS` within INPUT. -/
theorem inPosOk_pop {s : State} {v : Nat} (hv : s.input.get? s.params.width s.inPos = some v) :
    ({ s with inPos := s.inPos + 1 } : State).inPosOk := by
  unfold State.inPosOk
  split
  · rename_i values heq
    replace heq : s.input = .finite values := heq
    rw [heq] at hv
    exact (List.getElem?_eq_some_iff.mp hv).1
  · trivial

/-! ### What the invariant says of addresses and cells -/

section
variable {s : State} (hi : s.Inv)
include hi

/-- R9, R10: every address up to `N` is one cell, and below the sentinel. -/
theorem State.Inv.addr_lt {a : Nat} (ha : a ≤ s.mem.size) : a < s.params.haltPc := by
  have hp := hi.params
  simp only [Params.wf, Bool.and_eq_true, decide_eq_true_eq] at hp
  obtain ⟨⟨hW, -⟩, -⟩ := hp
  obtain ⟨hN, -⟩ := Memory.wf_iff.mp hi.mem
  exact lt_haltPc hW hN ha

theorem State.Inv.addr_lt_two_pow {a : Nat} (ha : a ≤ s.mem.size) : a < 2 ^ s.params.width :=
  (hi.addr_lt ha).trans_le (Nat.sub_le _ _)

/-- R8: an operand of the fetched instruction is one cell. -/
theorem State.Inv.operand_lt {i : Instr} (hf : fetchInstr s = .ok i) {a : Nat} (ha : a ∈ i.operands) :
    a < 2 ^ s.params.width := by
  obtain ⟨c, hc⟩ := operand_get? hf ha
  exact Memory.get?_bound hi.mem hc

/-- R17: outside Halted `pc` is at most `N`. -/
theorem State.Inv.pc_le (hh : s.status.state ≠ .halted) : s.pc ≤ s.mem.size := by
  simpa [hh] using hi.pc

/-- R21, R22: outside Faulted CAUSE is None and FINFO is 0. -/
theorem State.Inv.no_record (hh : s.status.state ≠ .faulted) : s.status.cause = .none ∧ s.finfo = 0 := by
  simpa [hh] using hi.status

/-! ### The four ends of a step keep it -/

/-- R35, R8: a completed instruction writes one cell at most, and a cell value. -/
theorem Completed.mem_wf {t : State} {i : Instr} (h : Completed s i t) : t.mem.wf s.params.width = true := by
  cases h with
  | add a b d va vb ha hb hf hd => exact Memory.wf_set hi.mem hd (truncW_lt _ _)
  | mul a b d va vb ha hb hf hd => exact Memory.wf_set hi.mem hd (truncW_lt _ _)
  | inp d v hv hd => exact Memory.wf_set hi.mem hd (input_get?_bound hi.input hv)
  | out a v hv => exact hi.mem

/-- R25: a completed instruction emits cell values only. -/
theorem Completed.outLog_lt {t : State} {i : Instr} (h : Completed s i t) :
    ∀ v ∈ t.outLog, v < 2 ^ s.params.width := by
  cases h with
  | out a v hv =>
    intro u hu
    obtain hu | hu := List.mem_append.mp hu
    · exact hi.outLog u hu
    · rw [List.mem_singleton.mp hu]; exact Memory.get?_bound hi.mem hv
  | _ => exact hi.outLog

theorem Completed.inPosOk {t : State} {i : Instr} (h : Completed s i t) : t.inPosOk := by
  cases h with
  | inp d v hv hd => exact inPosOk_pop hv
  | _ => exact hi.inPos

/-- A completed instruction keeps the invariant. -/
theorem Completed.keeps_inv {t : State} {i : Instr} (hrun : s.status.state = .running) (hf : fetchInstr s = .ok i)
    (h : Completed s i t) : t.Inv := by
  obtain ⟨-, hstatus, hfinfo, -, hparams, hinput⟩ := h.frame
  have hgo := h.running hrun
  obtain ⟨hcause, hzero⟩ := hi.no_record (by simp [hrun])
  exact {
    params := by rw [hparams]; exact hi.params
    input := by rw [hparams, hinput]; exact hi.input
    mem := by rw [hparams]; exact h.mem_wf hi
    finfo := by rw [hparams, hfinfo]; exact hi.finfo
    outLog := by rw [hparams]; exact h.outLog_lt hi
    inPos := h.inPosOk hi
    pc := by rw [hgo]; exact h.pc_le hf
    status := by rw [hgo]; exact ⟨by rw [hstatus, hcause], by rw [hfinfo, hzero]⟩ }

/-- R67: a halt keeps the invariant, `pc` at the sentinel. -/
theorem haltRun_keeps_inv (hrun : s.status.state = .running) : (haltRun s).Inv :=
  { hi with
    pc := rfl
    status := hi.no_record (by simp [hrun]) }

/-- R93: taking a fault keeps the invariant where its record is true and its datum one cell. -/
theorem raise_keeps_inv {x : Exn} (hrun : s.status.state = .running) (hinfo : x.info < 2 ^ s.params.width)
    (hrecord : (raise x s).faultRecordOk) : (raise x s).Inv :=
  { hi with
    finfo := hinfo
    pc := hi.pc_le (by simp [hrun])
    status := hrecord }

/-- R82: the state in which a fault is taken meets the invariant, an IN's pop included. -/
theorem Faults.keeps_inv {u : State} {i : Instr} {x : Exn} (hrun : s.status.state = .running)
    (h : Faults s i x u) : u.Inv := by
  cases h with
  | inpDest d v hv hd =>
    exact { hi with
      inPos := inPosOk_pop hv
      status := by simpa [hrun] using hi.no_record (by simp [hrun]) }
  | _ => exact hi

/-- R22, R88: the datum of an instruction's fault is one cell. -/
theorem Faults.info_lt {u : State} {i : Instr} {x : Exn} (hf : fetchInstr s = .ok i) (h : Faults s i x u) :
    x.info < 2 ^ s.params.width := by
  cases x with
  | malformedProgram op => exact absurd h Faults.ne_malformedProgram
  | outOfBounds a => exact hi.operand_lt hf h.outOfBounds_operand.1
  | inputExhausted => exact Nat.two_pow_pos _
  | arithOverflow q =>
    obtain ⟨r, -, -, -, rfl, -⟩ := Faults.arithOverflow_iff.mp h
    exact truncW_lt _ _

/-- R22, R88: the datum of a fetch's fault is one cell. -/
theorem fetchInstr_info_lt {x : Exn} (hrun : s.status.state = .running) (h : fetchInstr s = .error x) :
    x.info < 2 ^ s.params.width := by
  obtain ⟨-, rfl⟩ | ⟨op, h0, -, rfl⟩ | ⟨op, h', k, -, -, -, hprev, -, rfl⟩ := fetchInstr_error h
  · exact hi.addr_lt_two_pow (hi.pc_le (by simp [hrun]))
  · exact Memory.get?_bound hi.mem h0
  · exact hi.addr_lt_two_pow (Nat.lt_of_not_le fun hle => hprev (Memory.get?_eq_none.mpr hle))

end

/-! ### The statements -/

/-- Settles O44: each of the four ends of a step keeps the invariant. -/
theorem stepKeepsTheInvariant : Obligations.StepKeepsTheInvariant := by
  intro s t hi hstep
  obtain ⟨hrun, hend⟩ := step_eq_next.mp hstep
  cases hend with
  | completed i t hf hc => exact hc.keeps_inv hi hrun hf
  | halted hf => exact haltRun_keeps_inv hi hrun
  | faulted i x u hf hx =>
    obtain ⟨-, hstatus, -, -, -, hparams, -⟩ := hx.frame
    refine raise_keeps_inv (hx.keeps_inv hi hrun) (by rw [hstatus, hrun]) ?_ hx.recordOk
    rw [hparams]
    exact hx.info_lt hi hf
  | fetchFaulted x hf => exact raise_keeps_inv hi hrun (fetchInstr_info_lt hi hrun hf) (fetchInstr_recordOk hf)

/-- A run keeps the invariant. -/
theorem run_keeps_inv (k : Nat) {s : State} (hi : s.Inv) : (run k s).Inv :=
  run_induction (P := State.Inv) stepKeepsTheInvariant k hi

theorem hostAct_step {s t : State} : hostAct .step s = some t ↔ step s = .next t := by
  unfold hostAct
  cases step s <;> simp

/-- Settles O45: a reset is a launch with admitted arguments, and the other actions are steps. -/
theorem hostActionsKeepTheInvariant : Obligations.HostActionsKeepTheInvariant := by
  intro act s t hi h
  cases act with
  | reset p image inp =>
    obtain ⟨hok, ht⟩ := Option.ite_none_right_eq_some.mp h
    cases ht
    exact launchMeetsTheInvariant p image inp hok
  | step => exact stepKeepsTheInvariant s t hi (hostAct_step.mp h)
  | run bound =>
    obtain ⟨-, ht⟩ := Option.ite_none_right_eq_some.mp h
    cases ht
    exact run_keeps_inv _ hi

/-- Settles O46: outside Halted `pc` is at most `N`, and `N` is below the sentinel. -/
theorem sentinelExactlyWhenHalted : Obligations.SentinelExactlyWhenHalted := by
  intro s hi
  refine ⟨⟨fun hpc => ?_, fun hh => ?_⟩, ?_⟩
  · by_contra hh
    exact absurd hpc (hi.addr_lt (hi.pc_le hh)).ne
  · have hpc := hi.pc
    rwa [if_pos hh] at hpc
  · exact Memory.get?_eq_none.mpr (hi.addr_lt le_rfl).le

/-- R21, R94: a true fault record names a fault, and not the loader's. -/
theorem State.faultRecordOk_cause {s : State} (h : s.faultRecordOk) :
    s.status.cause ≠ .none ∧ s.status.cause ≠ .loadError := by
  unfold State.faultRecordOk at h
  constructor <;> intro hc <;> rw [hc] at h <;> exact h

/-- Settles O47: the run meets the invariant, which says so. -/
theorem causeAndFinfoOnlyAfterAFault : Obligations.CauseAndFinfoOnlyAfterAFault := by
  intro p image inp k hok
  have hi : (run k (launch p image inp)).Inv := run_keeps_inv k (launchMeetsTheInvariant p image inp hok)
  refine ⟨hi.no_record, fun hfault => ?_⟩
  have hstatus := hi.status
  rw [if_pos hfault] at hstatus
  exact State.faultRecordOk_cause hstatus

end Sys2Proof.Machine
end

section
/-! The statements about runs (`40_fetch_decode.md` section 7, `10_state.md` sections 6 to 8). -/

namespace Sys2Proof.Machine

/-! ### Every run ends (R71) -/

/-- R53: an instruction that completes has two cells at least. -/
theorem Completed.two_le_length {s t : State} {i : Instr} (h : Completed s i t) : 2 ≤ i.handler.length := by
  cases h <;> simp [Instr.handler, Handler.length]

/-- R71: each step after which the machine is still Running moved `pc` up by two cells at least, all of them below `N`. -/
theorem pc_add_le_of_step_running {s t : State} (h : step s = .next t) (hgo : t.status.state = .running) :
    s.pc + 2 ≤ t.pc ∧ t.pc ≤ t.mem.size ∧ t.mem.size = s.mem.size := by
  obtain ⟨-, hend⟩ := step_eq_next.mp h
  cases hend with
  | completed i t hf hc =>
    obtain ⟨hpc, -, -, hN, -⟩ := hc.frame
    have hlen := hc.two_le_length
    exact ⟨by omega, hc.pc_le hf, hN⟩
  | halted hf => cases hgo
  | faulted i x u hf hx => cases hgo
  | fetchFaulted x hf => cases hgo

/-- R61: a Running machine takes a step. -/
theorem exists_step_of_running {s : State} (h : s.status.state = .running) : ∃ t, step s = .next t := by
  obtain ⟨_, t, -, -, he⟩ | ⟨-, he⟩ | ⟨_, _, _, -, -, he⟩ | ⟨_, -, he⟩ := step_cases h <;> exact ⟨_, he⟩

/-- A run that is still Running was Running from the start. -/
theorem running_of_run_running {k : Nat} {s : State} (h : (run k s).status.state = .running) :
    s.status.state = .running := by
  by_contra hn
  rw [run_ended hn] at h
  exact hn h

/-- R71: a machine that is still Running after `k` steps had room for `k` instructions of two cells above `pc`. -/
theorem pc_add_le_of_run_running {k : Nat} {s : State} (h : (run k s).status.state = .running) :
    k = 0 ∨ s.pc + 2 * k ≤ s.mem.size := by
  induction k generalizing s with
  | zero => exact .inl rfl
  | succ k ih =>
    obtain ⟨t, hs⟩ := exists_step_of_running (running_of_run_running h)
    rw [run_next hs] at h
    obtain ⟨hpc, hle, hN⟩ := pc_add_le_of_step_running hs (running_of_run_running h)
    obtain rfl | hroom := ih h <;> exact .inr (by omega)

/-- Settles O48: there is no room for that many instructions. -/
theorem everyRunEnds : Obligations.EveryRunEnds := by
  intro s h
  obtain h0 | hroom := pc_add_le_of_run_running h <;> omega

/-! ### An ended run (R112) -/

/-- Settles O49: no step is defined, and the host asks for one or for Running. -/
theorem endedRunIsFrozen : Obligations.EndedRunIsFrozen := by
  intro s h
  obtain ⟨r, hr⟩ := step_ended h
  exact ⟨⟨r, hr⟩, run_ended h, by rw [hostAct, hr], fun b => if_neg h⟩

/-! ### What a run only extends -/

/-- `t` can come after `s` on a run: `N` and the configuration are the same, `IN_POS` and the output log have only grown
(R24, R25, R26, R48). -/
structure Extends (s t : State) : Prop where
  size : t.mem.size = s.mem.size
  params : t.params = s.params
  input : t.input = s.input
  inPos : s.inPos ≤ t.inPos
  outLog : s.outLog <+: t.outLog

theorem Extends.refl (s : State) : Extends s s := ⟨rfl, rfl, rfl, le_rfl, List.prefix_rfl⟩

theorem Extends.trans {s t u : State} (h : Extends s t) (h' : Extends t u) : Extends s u where
  size := h'.size.trans h.size
  params := h'.params.trans h.params
  input := h'.input.trans h.input
  inPos := h.inPos.trans h'.inPos
  outLog := h.outLog.trans h'.outLog

theorem Completed.extends {s t : State} {i : Instr} (h : Completed s i t) : Extends s t := by
  cases h with
  | inp d v hv hd => exact ⟨rfl, rfl, rfl, Nat.le_succ _, List.prefix_rfl⟩
  | out a v hv => exact ⟨rfl, rfl, rfl, le_rfl, List.prefix_append _ _⟩
  | _ => exact ⟨rfl, rfl, rfl, le_rfl, List.prefix_rfl⟩

theorem Faults.extends {s u : State} {i : Instr} {x : Exn} (h : Faults s i x u) : Extends s (raise x u) := by
  cases h with
  | inpDest d v hv hd => exact ⟨rfl, rfl, rfl, Nat.le_succ _, List.prefix_rfl⟩
  | _ => exact ⟨rfl, rfl, rfl, le_rfl, List.prefix_rfl⟩

theorem step_extends {s t : State} (h : step s = .next t) : Extends s t := by
  obtain ⟨-, hend⟩ := step_eq_next.mp h
  cases hend with
  | completed i t hf hc => exact hc.extends
  | halted hf => exact ⟨rfl, rfl, rfl, le_rfl, List.prefix_rfl⟩
  | faulted i x u hf hx => exact hx.extends
  | fetchFaulted x hf => exact ⟨rfl, rfl, rfl, le_rfl, List.prefix_rfl⟩

/-- Settles O50: every step extends, and so does a run of them. -/
theorem runsOnlyExtendTheLogs : Obligations.RunsOnlyExtendTheLogs := by
  intro s k
  have h : Extends s (run k s) :=
    run_induction (P := Extends s) (fun _ _ hs hstep => hs.trans (step_extends hstep)) k (Extends.refl s)
  exact ⟨h.size, h.params, h.input, h.inPos, h.outLog⟩

/-! ### Transfers (R24, R25) -/

/-- The step takes an input value: the fetched instruction is an IN and INPUT has a further value. -/
def Pops (s : State) : Prop := ∃ d v, fetchInstr s = .ok (.inp d) ∧ s.input.get? s.params.width s.inPos = some v

/-- The step emits `v`: the fetched instruction is an OUT whose source holds `v`. -/
def Emits (s : State) (v : Nat) : Prop := ∃ a, fetchInstr s = .ok (.out a) ∧ s.mem.get? a = some v

/-- R24: `IN_POS` is one more after a step that pops, and else as before. -/
theorem step_inPos {s t : State} (h : step s = .next t) :
    Pops s ∧ t.inPos = s.inPos + 1 ∨ ¬ Pops s ∧ t.inPos = s.inPos := by
  obtain ⟨-, hend⟩ := step_eq_next.mp h
  cases hend with
  | completed i t hf hc =>
    cases hc with
    | inp d v hv hd => exact .inl ⟨⟨d, v, hf, hv⟩, rfl⟩
    | _ => exact .inr ⟨by simp [Pops, hf], rfl⟩
  | halted hf => exact .inr ⟨by simp [Pops, hf], rfl⟩
  | faulted i x u hf hx =>
    cases hx with
    | inpDest d v hv hd => exact .inl ⟨⟨d, v, hf, hv⟩, rfl⟩
    | inpExhausted d hv => exact .inr ⟨by simp [Pops, hv], rfl⟩
    | _ => exact .inr ⟨by simp [Pops, hf], rfl⟩
  | fetchFaulted x hf => exact .inr ⟨by simp [Pops, hf], rfl⟩

/-- R25: the log has one more value after a step that emits it, and else is as before. -/
theorem step_outLog {s t : State} (h : step s = .next t) :
    (∃ v, Emits s v ∧ t.outLog = s.outLog ++ [v]) ∨ (∀ v, ¬ Emits s v) ∧ t.outLog = s.outLog := by
  obtain ⟨-, hend⟩ := step_eq_next.mp h
  cases hend with
  | completed i t hf hc =>
    cases hc with
    | out a v hv => exact .inl ⟨v, ⟨a, hf, hv⟩, rfl⟩
    | _ => exact .inr ⟨by simp [Emits, hf], rfl⟩
  | halted hf => exact .inr ⟨by simp [Emits, hf], rfl⟩
  | faulted i x u hf hx =>
    cases hx with
    | outSource a ha => exact .inr ⟨by simp [Emits, hf, ha], rfl⟩
    | _ => exact .inr ⟨by simp [Emits, hf], rfl⟩
  | fetchFaulted x hf => exact .inr ⟨by simp [Emits, hf], rfl⟩

/-- Settles O51: `step_inPos` and `step_outLog`. -/
theorem oneTransferPerInputOrOutput : Obligations.OneTransferPerInputOrOutput := by
  refine fun s t _ hstep => ⟨step_inPos hstep, ?_⟩
  obtain ⟨v, ⟨a, hf, hv⟩, hlog⟩ | ⟨hnone, hlog⟩ := step_outLog hstep
  · exact .inl ⟨a, v, hf, hv, hlog⟩
  · exact .inr ⟨fun ⟨a, v, hf, hv⟩ => hnone v ⟨a, hf, hv⟩, hlog⟩

/-! ### A write and the next fetch (R45) -/

/-- R66: the next opcode cell, after a completed ADD, MUL or IN that wrote it with a value that selects HALT, is read by
the next step, which halts. -/
theorem halts_next {s t : State} {v : Nat} (hrun : t.status.state = .running) (hcell : t.mem.get? t.pc = some v)
    (hparams : t.params = s.params) (hcause : t.status.cause = s.status.cause)
    (hl : s.params.rom.lookup v = some .halt) :
    t.mem.get? t.pc = some v ∧ fetchInstr t = .ok .halt ∧
      step t = .next { t with pc := 2 ^ s.params.width - 1
                              status := { state := .halted, cause := s.status.cause } } := by
  rw [← hparams] at hl
  refine ⟨hcell, fetchInstr_of_halt hcell hl, ?_⟩
  rw [step_of_halt hrun hcell hl, ← hparams, ← hcause]
  rfl

/-- Settles O52: the instruction completes, its result stands where `pc` now is, and the next step reads it there. -/
theorem nextFetchSeesTheWrite : Obligations.NextFetchSeesTheWrite := by
  intro s i a b va vb v hrun hf hwrites hl
  have hdone : ∃ t, Completed s i t ∧ t.mem.get? t.pc = some v := by
    obtain ⟨rfl, ha, hb, rfl, hfit, hd⟩ | ⟨rfl, ha, hb, rfl, hfit, hd⟩ | ⟨rfl, hv, hd⟩ := hwrites
    · refine ⟨_, .add a b _ va vb ha hb (.inl hfit) hd, ?_⟩
      rw [Memory.get?_set_same hd, truncW, Nat.mod_eq_of_lt hfit]
    · refine ⟨_, .mul a b _ va vb ha hb (.inl hfit) hd, ?_⟩
      rw [Memory.get?_set_same hd, truncW, Nat.mod_eq_of_lt hfit]
    · exact ⟨_, .inp _ v hv hd, Memory.get?_set_same hd v⟩
  obtain ⟨t, hc, hcell⟩ := hdone
  obtain ⟨-, hstatus, -, -, hparams, -⟩ := hc.frame
  exact ⟨t, step_eq_next.mpr ⟨hrun, .completed i t hf hc⟩,
    halts_next (hc.running hrun) hcell hparams (by rw [hstatus]) hl⟩

end Sys2Proof.Machine
end

section
/-! What a program cannot observe, and what the host may (`10_state.md` sections 1, 4, 6 and 8). Both noninterference
statements carry one run over to another: the fetch and each case of `Completed` and `Faults` hold as well in the state with
the unread item replaced, so the step there answers as it does here. -/

namespace Sys2Proof.Machine

/-! ### The output log (R25) -/

/-- The state with another output log. -/
def State.withLog (s : State) (log : List Nat) : State := { s with outLog := log }

theorem fetchInstr_withLog (s : State) (log : List Nat) : fetchInstr (s.withLog log) = fetchInstr s :=
  fetchInstr_congr rfl rfl rfl

theorem State.withLog_append_nil (s : State) (log : List Nat) : s.withLog (log ++ []) = s.withLog log := by
  rw [List.append_nil]

/-- An instruction completes with any log as it does with this one, and appends the same values. -/
theorem Completed.withLog {s t : State} {i : Instr} (h : Completed s i t) (log : List Nat) :
    ∃ new, t.outLog = s.outLog ++ new ∧ Completed (s.withLog log) i (t.withLog (log ++ new)) := by
  cases h with
  | add a b d va vb ha hb hf hd =>
    exact ⟨[], (List.append_nil _).symm, by rw [State.withLog_append_nil]; exact .add a b d va vb ha hb hf hd⟩
  | mul a b d va vb ha hb hf hd =>
    exact ⟨[], (List.append_nil _).symm, by rw [State.withLog_append_nil]; exact .mul a b d va vb ha hb hf hd⟩
  | inp d v hv hd => exact ⟨[], (List.append_nil _).symm, by rw [State.withLog_append_nil]; exact .inp d v hv hd⟩
  | out a v hv => exact ⟨[v], rfl, .out a v hv⟩

/-- An instruction faults with any log as it does with this one. -/
theorem Faults.withLog {s u : State} {i : Instr} {x : Exn} (h : Faults s i x u) (log : List Nat) :
    Faults (s.withLog log) i x (u.withLog log) := by
  cases h <;> constructor <;> assumption

/-- Each end of a step is reached with any log as it is with this one. -/
theorem Stepped.withLog {s t : State} (h : Stepped s t) (log : List Nat) :
    ∃ new, t.outLog = s.outLog ++ new ∧ Stepped (s.withLog log) (t.withLog (log ++ new)) := by
  have hfetch := fetchInstr_withLog s log
  cases h with
  | completed i t hf hc =>
    obtain ⟨new, hnew, hc'⟩ := hc.withLog log
    exact ⟨new, hnew, .completed i _ (hfetch.trans hf) hc'⟩
  | halted hf =>
    exact ⟨[], (List.append_nil _).symm, by rw [State.withLog_append_nil]; exact .halted (hfetch.trans hf)⟩
  | faulted i x u hf hx =>
    obtain ⟨-, -, -, -, hlog, -⟩ := hx.frame
    refine ⟨[], by rw [raise_outLog, hlog, List.append_nil], ?_⟩
    rw [State.withLog_append_nil]
    exact .faulted i x _ (hfetch.trans hf) (hx.withLog log)
  | fetchFaulted x hf =>
    exact ⟨[], (List.append_nil _).symm, by rw [State.withLog_append_nil]; exact .fetchFaulted x (hfetch.trans hf)⟩

/-- Settles O53: the end that the step reaches is reached with the other log. -/
theorem programCannotReadTheOutputLog : Obligations.ProgramCannotReadTheOutputLog := by
  intro s t log hstep
  obtain ⟨hrun, hend⟩ := step_eq_next.mp hstep
  obtain ⟨new, hnew, hend'⟩ := hend.withLog log
  exact ⟨new, hnew, step_eq_next.mpr ⟨hrun, hend'⟩⟩

/-! ### CAUSE and FINFO (R19 to R22) -/

/-- The state with another CAUSE and FINFO. -/
def State.withRecord (s : State) (c : Cause) (f : Nat) : State :=
  { s with status := { state := s.status.state, cause := c }, finfo := f }

theorem fetchInstr_withRecord (s : State) (c : Cause) (f : Nat) : fetchInstr (s.withRecord c f) = fetchInstr s :=
  fetchInstr_congr rfl rfl rfl

/-- An instruction completes with any CAUSE and FINFO, and leaves them. -/
theorem Completed.withRecord {s t : State} {i : Instr} (h : Completed s i t) (c : Cause) (f : Nat) :
    Completed (s.withRecord c f) i (t.withRecord c f) := by
  cases h <;> constructor <;> assumption

/-- An instruction faults with any CAUSE and FINFO. -/
theorem Faults.withRecord {s u : State} {i : Instr} {x : Exn} (h : Faults s i x u) (c : Cause) (f : Nat) :
    Faults (s.withRecord c f) i x (u.withRecord c f) := by
  cases h <;> constructor <;> assumption

/-- Each end of a step is reached with any CAUSE and FINFO; a fault writes both and the others leave them. -/
theorem Stepped.withRecord {s t : State} (h : Stepped s t) (hrun : s.status.state = .running) (c : Cause) (f : Nat) :
    Stepped (s.withRecord c f) (if t.status.state = .faulted then t else t.withRecord c f) := by
  have hfetch := fetchInstr_withRecord s c f
  cases h with
  | completed i t hf hc =>
    rw [hc.running hrun]
    exact .completed i _ (hfetch.trans hf) (hc.withRecord c f)
  | halted hf => exact .halted (hfetch.trans hf)
  | faulted i x u hf hx => exact .faulted i x (u.withRecord c f) (hfetch.trans hf) (hx.withRecord c f)
  | fetchFaulted x hf => exact .fetchFaulted x (hfetch.trans hf)

/-- Settles O54: the end that the step reaches is reached with the other CAUSE and FINFO. -/
theorem programCannotReadCauseOrFinfo : Obligations.ProgramCannotReadCauseOrFinfo := by
  intro s t c f hstep
  obtain ⟨hrun, hend⟩ := step_eq_next.mp hstep
  exact step_eq_next.mpr ⟨hrun, hend.withRecord hrun c f⟩

/-! ### The host's reads (R29, R111) -/

/-- Settles O55: each read tests STATE, or nothing. -/
theorem hostReadsMemoryOnlyAfterTheRun : Obligations.HostReadsMemoryOnlyAfterTheRun :=
  fun _ _ => ⟨fun hrun => ⟨if_pos hrun, if_pos hrun⟩, fun hend => ⟨if_neg hend, if_neg hend⟩, rfl, rfl⟩

/-! ### The six items (R15) -/

/-- Settles O56: a next state has the configuration of the state before, and a stop has none. -/
theorem stepIsAMachineOverTheSixItems : Obligations.StepIsAMachineOverTheSixItems := by
  intro s
  by_cases hrun : s.status.state = .running
  · obtain ⟨t, hstep⟩ := exists_step_of_running hrun
    rw [archStep_next hstep, hstep, withConfig, ← step_config hstep]
  · obtain ⟨r, hstep⟩ := step_ended hrun
    rw [archStep_fault hstep, hstep, withConfig]

end Sys2Proof.Machine
end
